-- ==== Sys2Proof/Word.lean ====
section
/-! DEFINITION. The word types of the CHIP-8 core (spec 00_scope.md R6, R9, R10). -/

namespace Sys2Proof

/-- An 8-bit value: a memory cell, a general register, a timer (R6 `REG_W`, `TIMER_W`). -/
abbrev Byte := BitVec 8

/-- A 16-bit value: an opcode, `I`, `PC`, a stack entry (R6 `I_W`, `PC_W`, `STACK_ELEM_W`). -/
abbrev Word := BitVec 16

/-- A register number, the 4-bit field `x` or `y`: every value names a register (R23). -/
abbrev RegId := BitVec 4

/-- The 4-bit immediate `n` of Dxyn (R10). -/
abbrev Nibble := BitVec 4

/-- The 12-bit immediate `nnn` (R10). -/
abbrev Addr := BitVec 12

/-- VF, general register 15, which is also the flag (R24). -/
abbrev regVF : RegId := 15#4

/-- V0, read implicitly by Bnnn (R23, R123). -/
abbrev regV0 : RegId := 0#4

end Sys2Proof
end

