-- ==== Sys2Proof/Syntax.lean ====
section
/-! DEFINITION. The 34 instructions (spec 30_encoding.md R92, R95) and the source form of an assembly
line (R100, R101). -/

namespace Sys2Proof

/-- One constructor per row of R95, in the table's order. Operand fields have the width the encoding
gives them (R10), so no operand is out of range. -/
inductive Instr where
  /-- 00E0 `CLS` (R191) -/
  | cls
  /-- 00EE `RET` (R120) -/
  | ret
  /-- 1nnn `JP nnn` (R121) -/
  | jp (nnn : Addr)
  /-- 2nnn `CALL nnn` (R122) -/
  | call (nnn : Addr)
  /-- 3xnn `SE Vx, nn` (R124) -/
  | seImm (x : RegId) (nn : Byte)
  /-- 4xnn `SNE Vx, nn` (R125) -/
  | sneImm (x : RegId) (nn : Byte)
  /-- 5xy0 `SE Vx, Vy` (R126) -/
  | seReg (x y : RegId)
  /-- 6xnn `LD Vx, nn` (R140) -/
  | ldImm (x : RegId) (nn : Byte)
  /-- 7xnn `ADD Vx, nn` (R141) -/
  | addImm (x : RegId) (nn : Byte)
  /-- 8xy0 `LD Vx, Vy` (R142) -/
  | ldReg (x y : RegId)
  /-- 8xy1 `OR Vx, Vy` (R143) -/
  | orReg (x y : RegId)
  /-- 8xy2 `AND Vx, Vy` (R144) -/
  | andReg (x y : RegId)
  /-- 8xy3 `XOR Vx, Vy` (R145) -/
  | xorReg (x y : RegId)
  /-- 8xy4 `ADD Vx, Vy` (R146) -/
  | addReg (x y : RegId)
  /-- 8xy5 `SUB Vx, Vy` (R147) -/
  | subReg (x y : RegId)
  /-- 8xy6 `SHR Vx, Vy` (R148); `y` is encoded and ignored (R98) -/
  | shr (x y : RegId)
  /-- 8xy7 `SUBN Vx, Vy` (R149) -/
  | subnReg (x y : RegId)
  /-- 8xyE `SHL Vx, Vy` (R150); `y` is encoded and ignored (R98) -/
  | shl (x y : RegId)
  /-- 9xy0 `SNE Vx, Vy` (R127) -/
  | sneReg (x y : RegId)
  /-- Annn `LD I, nnn` (R170) -/
  | ldI (nnn : Addr)
  /-- Bnnn `JP V0, nnn` (R123) -/
  | jpV0 (nnn : Addr)
  /-- Cxnn `RND Vx, nn` (R151) -/
  | rnd (x : RegId) (nn : Byte)
  /-- Dxyn `DRW Vx, Vy, n` (R192) -/
  | drw (x y : RegId) (n : Nibble)
  /-- Ex9E `SKP Vx` (R210) -/
  | skp (x : RegId)
  /-- ExA1 `SKNP Vx` (R211) -/
  | sknp (x : RegId)
  /-- Fx07 `LD Vx, DT` (R213) -/
  | ldVxDt (x : RegId)
  /-- Fx0A `LD Vx, K` (R212) -/
  | ldVxK (x : RegId)
  /-- Fx15 `LD DT, Vx` (R214) -/
  | ldDtVx (x : RegId)
  /-- Fx18 `LD ST, Vx` (R215) -/
  | ldStVx (x : RegId)
  /-- Fx1E `ADD I, Vx` (R171) -/
  | addI (x : RegId)
  /-- Fx29 `LD F, Vx` (R172) -/
  | ldF (x : RegId)
  /-- Fx33 `LD B, Vx` (R173) -/
  | ldB (x : RegId)
  /-- Fx55 `LD [I], Vx` (R174) -/
  | storeRegs (x : RegId)
  /-- Fx65 `LD Vx, [I]` (R175) -/
  | loadRegs (x : RegId)
deriving DecidableEq, Repr

/-- The six formats of R92. -/
inductive Format where
  | Z | A | XI | XY | XYN | XF
deriving DecidableEq, Repr

/-- The mnemonics of R95's column. -/
inductive Mnemonic where
  | CLS | RET | JP | CALL | SE | SNE | LD | ADD | OR | AND | XOR | SUB | SHR | SUBN | SHL | RND | DRW | SKP | SKNP
deriving DecidableEq, Repr

/-- The literal operand words of R100, which select the instruction and encode no bits; `mem` is `[I]`. -/
inductive OperandWord where
  | I | DT | ST | K | F | B | mem
deriving DecidableEq, Repr

/-- An operand as written in an assembly line (R100): a register by its number, a number, a label or a
literal word. Numbers are unbounded here; whether they fit is checked in `WellFormed`. -/
inductive Operand where
  | reg (number : Nat)
  | num (value : Nat)
  | label (name : String)
  | word (w : OperandWord)
deriving DecidableEq, Repr

/-- An instruction as written: a mnemonic and its operands (R100). -/
structure SourceInstr where
  mnemonic : Mnemonic
  operands : List Operand
deriving DecidableEq, Repr

/-- A line of an assembly program (R100, R101). -/
inductive SourceLine where
  /-- `name:` stands for the address of the next byte -/
  | label (name : String)
  /-- exactly one 16-bit instruction -/
  | instr (i : SourceInstr)
  /-- `DB b0, b1, ...` -/
  | db (bytes : List Nat)
  /-- `ORG addr` -/
  | org (addr : Nat)
deriving DecidableEq, Repr

end Sys2Proof
end

