-- ==== Sys2Proof/Decode.lean ====
section
/-! DEFINITION. Opcode fields, decode and encode (spec 00_scope.md R10, 30_encoding.md R90 to R102). -/

namespace Sys2Proof

/-! ## Fields (R10) -/

/-- `fam`, `op[15:12]`. -/
def fieldFam (op : Word) : BitVec 4 := op.extractLsb' 12 4

/-- `x`, `op[11:8]`. -/
def fieldX (op : Word) : RegId := op.extractLsb' 8 4

/-- `y`, `op[7:4]`. -/
def fieldY (op : Word) : RegId := op.extractLsb' 4 4

/-- `n`, `op[3:0]`. -/
def fieldN (op : Word) : Nibble := op.extractLsb' 0 4

/-- `nn`, `op[7:0]`. -/
def fieldNN (op : Word) : Byte := op.extractLsb' 0 8

/-- `nnn`, `op[11:0]`. -/
def fieldNNN (op : Word) : Addr := op.extractLsb' 0 12

/-! ## Decode (R94, R96, R97) -/

/-- The classes of illegal encodings, one per row of R97's table. Executing any of them raises
`InvalidOpcode` (R231). -/
inductive IllegalOpcode where
  /-- 0x0nnn other than 00E0 and 00EE -/
  | family0
  /-- 5xyN with N not 0 -/
  | family5
  /-- 8xyN with N in 8, 9, A, B, C, D, F -/
  | family8
  /-- 9xyN with N not 0 -/
  | family9
  /-- ExNN with NN not 9E or A1 -/
  | familyE
  /-- FxNN with NN none of the nine sub-functions -/
  | familyF
deriving DecidableEq, Repr

/-- Decode as a total function of the 16 bits (R96). -/
def decode (op : Word) : Except IllegalOpcode Instr :=
  match fieldFam op with
  | 0x0#4 =>
    if op = 0x00E0#16 then .ok .cls
    else if op = 0x00EE#16 then .ok .ret
    else .error .family0
  | 0x1#4 => .ok (.jp (fieldNNN op))
  | 0x2#4 => .ok (.call (fieldNNN op))
  | 0x3#4 => .ok (.seImm (fieldX op) (fieldNN op))
  | 0x4#4 => .ok (.sneImm (fieldX op) (fieldNN op))
  | 0x5#4 => if fieldN op = 0x0#4 then .ok (.seReg (fieldX op) (fieldY op)) else .error .family5
  | 0x6#4 => .ok (.ldImm (fieldX op) (fieldNN op))
  | 0x7#4 => .ok (.addImm (fieldX op) (fieldNN op))
  | 0x8#4 =>
    match fieldN op with
    | 0x0#4 => .ok (.ldReg (fieldX op) (fieldY op))
    | 0x1#4 => .ok (.orReg (fieldX op) (fieldY op))
    | 0x2#4 => .ok (.andReg (fieldX op) (fieldY op))
    | 0x3#4 => .ok (.xorReg (fieldX op) (fieldY op))
    | 0x4#4 => .ok (.addReg (fieldX op) (fieldY op))
    | 0x5#4 => .ok (.subReg (fieldX op) (fieldY op))
    | 0x6#4 => .ok (.shr (fieldX op) (fieldY op))
    | 0x7#4 => .ok (.subnReg (fieldX op) (fieldY op))
    | 0xE#4 => .ok (.shl (fieldX op) (fieldY op))
    | _ => .error .family8
  | 0x9#4 => if fieldN op = 0x0#4 then .ok (.sneReg (fieldX op) (fieldY op)) else .error .family9
  | 0xA#4 => .ok (.ldI (fieldNNN op))
  | 0xB#4 => .ok (.jpV0 (fieldNNN op))
  | 0xC#4 => .ok (.rnd (fieldX op) (fieldNN op))
  | 0xD#4 => .ok (.drw (fieldX op) (fieldY op) (fieldN op))
  | 0xE#4 =>
    match fieldNN op with
    | 0x9E#8 => .ok (.skp (fieldX op))
    | 0xA1#8 => .ok (.sknp (fieldX op))
    | _ => .error .familyE
  | _ => -- 0xF, the last value of four bits
    match fieldNN op with
    | 0x07#8 => .ok (.ldVxDt (fieldX op))
    | 0x0A#8 => .ok (.ldVxK (fieldX op))
    | 0x15#8 => .ok (.ldDtVx (fieldX op))
    | 0x18#8 => .ok (.ldStVx (fieldX op))
    | 0x1E#8 => .ok (.addI (fieldX op))
    | 0x29#8 => .ok (.ldF (fieldX op))
    | 0x33#8 => .ok (.ldB (fieldX op))
    | 0x55#8 => .ok (.storeRegs (fieldX op))
    | 0x65#8 => .ok (.loadRegs (fieldX op))
    | _ => .error .familyF

/-- Why a sequence of bytes gives no instruction. -/
inductive DecodeError where
  /-- fewer than the two bytes of an instruction (R90) -/
  | truncated
  /-- two bytes that are no instruction (R97) -/
  | illegal (why : IllegalOpcode)
deriving DecidableEq, Repr

/-- `a ++ b` on two bytes: the first is `opcode[15:8]` (R62). -/
def joinBytes (hi lo : Byte) : Word := hi.setWidth 16 <<< 8 ||| lo.setWidth 16

/-- `opcode[15:8]`, the byte stored first (R62). -/
def highByte (op : Word) : Byte := op.extractLsb' 8 8

/-- `opcode[7:0]`, the byte stored second (R62). -/
def lowByte (op : Word) : Byte := op.extractLsb' 0 8

/-- Decode the instruction at the front of a sequence of bytes, with what follows it (R62, R90). -/
def decodeBytes : List Byte → Except DecodeError (Instr × List Byte)
  | hi :: lo :: rest =>
    match decode (joinBytes hi lo) with
    | .ok i => .ok (i, rest)
    | .error e => .error (.illegal e)
  | _ => .error .truncated

/-- What the decoder reads from an opcode-table word of `nbits` bits. The table numbers the bits of a
16-bit word as R9 does, and the word is stored high byte first (R62). -/
def decodeTableWord (nbits w : Nat) : Option Instr :=
  let op : Word := BitVec.ofNat 16 (w % 2 ^ nbits)
  match decodeBytes [highByte op, lowByte op] with
  | .ok (i, _) => some i
  | .error _ => none

/-! ## Encode (R92, R102) -/

/-- `x << 8`. -/
def placeX (x : RegId) : Word := x.setWidth 16 <<< 8

/-- `y << 4`. -/
def placeY (y : RegId) : Word := y.setWidth 16 <<< 4

/-- `n`. -/
def placeN (n : Nibble) : Word := n.setWidth 16

/-- `nn`. -/
def placeNN (nn : Byte) : Word := nn.setWidth 16

/-- `nnn`. -/
def placeNNN (nnn : Addr) : Word := nnn.setWidth 16

/-- Format `A` with the row's match value (R92, R102). -/
def encodeA (m : Word) (nnn : Addr) : Word := m ||| placeNNN nnn

/-- Format `XI`. -/
def encodeXI (m : Word) (x : RegId) (nn : Byte) : Word := m ||| placeX x ||| placeNN nn

/-- Format `XY`; the sub-function stands in the match value. -/
def encodeXY (m : Word) (x y : RegId) : Word := m ||| placeX x ||| placeY y

/-- Format `XYN`. -/
def encodeXYN (m : Word) (x y : RegId) (n : Nibble) : Word := m ||| placeX x ||| placeY y ||| placeN n

/-- Format `XF`; the sub-function stands in the match value. -/
def encodeXF (m : Word) (x : RegId) : Word := m ||| placeX x

/-- Encoding an instruction: the `match` value of its row of R95 with its operands placed (R102). -/
def encode : Instr → Word
  | .cls => 0x00E0
  | .ret => 0x00EE
  | .jp nnn => encodeA 0x1000 nnn
  | .call nnn => encodeA 0x2000 nnn
  | .seImm x nn => encodeXI 0x3000 x nn
  | .sneImm x nn => encodeXI 0x4000 x nn
  | .seReg x y => encodeXY 0x5000 x y
  | .ldImm x nn => encodeXI 0x6000 x nn
  | .addImm x nn => encodeXI 0x7000 x nn
  | .ldReg x y => encodeXY 0x8000 x y
  | .orReg x y => encodeXY 0x8001 x y
  | .andReg x y => encodeXY 0x8002 x y
  | .xorReg x y => encodeXY 0x8003 x y
  | .addReg x y => encodeXY 0x8004 x y
  | .subReg x y => encodeXY 0x8005 x y
  | .shr x y => encodeXY 0x8006 x y
  | .subnReg x y => encodeXY 0x8007 x y
  | .shl x y => encodeXY 0x800E x y
  | .sneReg x y => encodeXY 0x9000 x y
  | .ldI nnn => encodeA 0xA000 nnn
  | .jpV0 nnn => encodeA 0xB000 nnn
  | .rnd x nn => encodeXI 0xC000 x nn
  | .drw x y n => encodeXYN 0xD000 x y n
  | .skp x => encodeXF 0xE09E x
  | .sknp x => encodeXF 0xE0A1 x
  | .ldVxDt x => encodeXF 0xF007 x
  | .ldVxK x => encodeXF 0xF00A x
  | .ldDtVx x => encodeXF 0xF015 x
  | .ldStVx x => encodeXF 0xF018 x
  | .addI x => encodeXF 0xF01E x
  | .ldF x => encodeXF 0xF029 x
  | .ldB x => encodeXF 0xF033 x
  | .storeRegs x => encodeXF 0xF055 x
  | .loadRegs x => encodeXF 0xF065 x

/-- The two bytes of an instruction as they lie in memory, high byte first (R62, R102). -/
def encodeBytes (i : Instr) : List Byte := [highByte (encode i), lowByte (encode i)]

/-! ## The opcode map as a table (R95) -/

/-- A row of R95: `op` is the instruction of the row exactly when `op & mask = value`. -/
structure OpcodeRow where
  pattern : String
  mask : Word
  value : Word
  format : Format
deriving DecidableEq, Repr

/-- `op & mask = match` (R95). -/
def OpcodeRow.matches (r : OpcodeRow) (op : Word) : Bool := op &&& r.mask == r.value

/-- R95's 34 rows, in its order. -/
def opcodeTable : List OpcodeRow :=
  [⟨"00E0", 0xFFFF, 0x00E0, .Z⟩, ⟨"00EE", 0xFFFF, 0x00EE, .Z⟩, ⟨"1nnn", 0xF000, 0x1000, .A⟩,
   ⟨"2nnn", 0xF000, 0x2000, .A⟩, ⟨"3xnn", 0xF000, 0x3000, .XI⟩, ⟨"4xnn", 0xF000, 0x4000, .XI⟩,
   ⟨"5xy0", 0xF00F, 0x5000, .XY⟩, ⟨"6xnn", 0xF000, 0x6000, .XI⟩, ⟨"7xnn", 0xF000, 0x7000, .XI⟩] ++
  [⟨"8xy0", 0xF00F, 0x8000, .XY⟩, ⟨"8xy1", 0xF00F, 0x8001, .XY⟩, ⟨"8xy2", 0xF00F, 0x8002, .XY⟩,
   ⟨"8xy3", 0xF00F, 0x8003, .XY⟩, ⟨"8xy4", 0xF00F, 0x8004, .XY⟩, ⟨"8xy5", 0xF00F, 0x8005, .XY⟩,
   ⟨"8xy6", 0xF00F, 0x8006, .XY⟩, ⟨"8xy7", 0xF00F, 0x8007, .XY⟩, ⟨"8xyE", 0xF00F, 0x800E, .XY⟩] ++
  [⟨"9xy0", 0xF00F, 0x9000, .XY⟩, ⟨"Annn", 0xF000, 0xA000, .A⟩, ⟨"Bnnn", 0xF000, 0xB000, .A⟩,
   ⟨"Cxnn", 0xF000, 0xC000, .XI⟩, ⟨"Dxyn", 0xF000, 0xD000, .XYN⟩, ⟨"Ex9E", 0xF0FF, 0xE09E, .XF⟩,
   ⟨"ExA1", 0xF0FF, 0xE0A1, .XF⟩] ++
  [⟨"Fx07", 0xF0FF, 0xF007, .XF⟩, ⟨"Fx0A", 0xF0FF, 0xF00A, .XF⟩, ⟨"Fx15", 0xF0FF, 0xF015, .XF⟩,
   ⟨"Fx18", 0xF0FF, 0xF018, .XF⟩, ⟨"Fx1E", 0xF0FF, 0xF01E, .XF⟩, ⟨"Fx29", 0xF0FF, 0xF029, .XF⟩,
   ⟨"Fx33", 0xF0FF, 0xF033, .XF⟩, ⟨"Fx55", 0xF0FF, 0xF055, .XF⟩, ⟨"Fx65", 0xF0FF, 0xF065, .XF⟩]

/-- The number of an instruction's row in `opcodeTable`, from 0. -/
def Instr.row : Instr → Nat
  | .cls => 0 | .ret => 1 | .jp _ => 2 | .call _ => 3 | .seImm _ _ => 4 | .sneImm _ _ => 5
  | .seReg _ _ => 6 | .ldImm _ _ => 7 | .addImm _ _ => 8 | .ldReg _ _ => 9 | .orReg _ _ => 10
  | .andReg _ _ => 11 | .xorReg _ _ => 12 | .addReg _ _ => 13 | .subReg _ _ => 14 | .shr _ _ => 15
  | .subnReg _ _ => 16 | .shl _ _ => 17 | .sneReg _ _ => 18 | .ldI _ => 19 | .jpV0 _ => 20
  | .rnd _ _ => 21 | .drw _ _ _ => 22 | .skp _ => 23 | .sknp _ => 24 | .ldVxDt _ => 25
  | .ldVxK _ => 26 | .ldDtVx _ => 27 | .ldStVx _ => 28 | .addI _ => 29 | .ldF _ => 30
  | .ldB _ => 31 | .storeRegs _ => 32 | .loadRegs _ => 33

end Sys2Proof
end

