-- ==== Sys2Proof/Config.lean ====
section
/-! DEFINITION. The parameters of the hardware (spec 00_scope.md R6, R7) and its one free value. -/

namespace Sys2Proof.Config

/-- `ADDR_MAX` (R6): the highest legal address; memory has `ADDR_MAX + 1 = 4096` cells. -/
abbrev addrMax : Nat := 0xFFF

/-- `GLYPH_BYTES` (R6): bytes per font glyph. -/
abbrev glyphBytes : Nat := 5

/-- `FONT_LEN` (R6): the font stands at addresses 0x000 to 0x04F (`FONT_BASE` is 0). -/
abbrev fontLen : Nat := 80

/-- `PROG_BASE` (R6): the first address of a loaded program, and the PC after reset (R37, D3). -/
abbrev progBase : Nat := 0x200

/-- `PROG_MAX_LEN` (R6): the longest program that fits. -/
abbrev progMaxLen : Nat := 3584

/-- `DISP_W` (R6): display columns. -/
abbrev dispW : Nat := 64

/-- `DISP_H` (R6): display rows. -/
abbrev dispH : Nat := 32

/-- `SPRITE_W` (R6): sprite width in pixels. -/
abbrev spriteW : Nat := 8

/-- `NREGS` (R6). -/
abbrev nRegs : Nat := 16

/-- `NKEYS` (R6). -/
abbrev nKeys : Nat := 16

/-- `INSTR_BYTES` (R6): every instruction is two bytes. -/
abbrev instrBytes : Nat := 2

/-- `STACK_LIMIT` (R7): none for this hardware (D15; log entry 9). -/
def stackLimit : Option Nat := none

/-- `FONT` (R7, R33): sixteen glyphs of five bytes. PRESUMED: the default table of R33 is the spec's
general knowledge, not its source's (log entry 3). -/
def font : List Byte :=
  [0xF0, 0x90, 0x90, 0x90, 0xF0] ++ [0x20, 0x60, 0x20, 0x20, 0x70] ++
  [0xF0, 0x10, 0xF0, 0x80, 0xF0] ++ [0xF0, 0x10, 0xF0, 0x10, 0xF0] ++
  [0x90, 0x90, 0xF0, 0x10, 0x10] ++ [0xF0, 0x80, 0xF0, 0x10, 0xF0] ++
  [0xF0, 0x80, 0xF0, 0x90, 0xF0] ++ [0xF0, 0x10, 0x20, 0x40, 0x40] ++
  [0xF0, 0x90, 0xF0, 0x90, 0xF0] ++ [0xF0, 0x90, 0xF0, 0x10, 0xF0] ++
  [0xF0, 0x90, 0xF0, 0x90, 0x90] ++ [0xE0, 0x90, 0xE0, 0x90, 0xE0] ++
  [0xF0, 0x80, 0x80, 0x80, 0xF0] ++ [0xE0, 0x90, 0x90, 0x90, 0xE0] ++
  [0xF0, 0x80, 0xF0, 0x80, 0xF0] ++ [0xF0, 0x80, 0xF0, 0x80, 0x80]

/-- The free value of the hardware (R7 `rand`, R151, D20): the k-th random byte the host gives when no
scheduled `Step` states one. It has no body: no proof can see a value of it (log entry 2). -/
opaque randomByte : Nat → Byte

end Sys2Proof.Config
end

