-- ==== Sys2Proof/Machine/State.lean ====
section
/-! DEFINITION. The state of the machine as plain data (spec 10_state.md R20 to R37), the fault record
of the halt latch (60_exceptions.md R230), the host's events (R246) and the state after reset (R37). -/

namespace Sys2Proof.Machine

/-- `MEM` (R21): the bytes that differ from what memory holds after reset, by rising address.
Log entry 7 gives the canonical form; what an unlisted address reads as is `Memory.resetByte`. -/
abbrev Memory := List Host.Cell

/-- `PIX` (R22) by rows: cell `(cx, cy)`, index `cx + 64 * cy`, is bit `cx` of row `cy` (log entry 6). -/
abbrev Display := Vector (BitVec 64) 32

/-- The four faults of R230. -/
inductive FaultKind where
  /-- an illegal encoding (R231) -/
  | invalidOpcode
  /-- 00EE with an empty stack (R232) -/
  | stackUnderflow
  /-- an access above 0xFFF (R233) -/
  | addressOutOfRange
  /-- Ex9E or ExA1 with `V[x] > 0xF` (R234) -/
  | keyIndexOutOfRange
deriving DecidableEq, Repr

/-- The `addr` component of a fault record (R230): none, the offending address, or, for
`KeyIndexOutOfRange`, the offending index carried in its place. -/
inductive FaultInfo where
  | none
  | address (addr : Nat)
  | index (k : Byte)
deriving DecidableEq, Repr

/-- The fault record (R230). The `code` is `FaultKind.code` of the kind (log entry 14). -/
structure FaultRecord where
  kind : FaultKind
  pc : Word
  opcode : Option Word
  info : FaultInfo
deriving DecidableEq, Repr

/-- The events the host delivers (R246). -/
inductive HostEvent where
  /-- `Reset` (R270) -/
  | reset
  /-- `LoadProgram(bytes)` (R248) -/
  | loadProgram (bytes : List Byte)
  /-- `SetKey(i, pressed)` (R250) -/
  | setKey (index : Nat) (pressed : Bool)
  /-- `Step(rand)` (R249) -/
  | step (rand : Byte)
  /-- `Tick` (R244) -/
  | tick
deriving DecidableEq, Repr

/-- The reasons the MODEL stops. The hardware's own four faults are no stop: they are states with the
halt latch set (R236, R237; log entry 8). -/
inductive Fault where
  /-- Raised by 2nnn alone, when `Config.stackLimit` is some limit and the stack is full (D15: a model
  that sets a limit must fault, never drop an entry). With this hardware's `none` it is never raised.
  Safe: the hardware would go on. -/
  | stackOverflow
deriving DecidableEq, Repr

/-- The reasons the model refuses an instruction. -/
inductive Refusal where
  /-- An instruction without a meaning, by its mnemonic. No arm of `exec` answers it: all 34
  instructions have their meaning. Safe. -/
  | notModelled (mnemonic : String)
deriving DecidableEq, Repr

/-- The complete architectural state (R20), then the model's own three input fields (log entries 1, 2). -/
structure State where
  /-- `MEM` (R21) -/
  mem : Memory
  /-- `PIX` (R22) -/
  pix : Display
  /-- `V` (R23, R24) -/
  v : Vector Byte 16
  /-- `I` (R26) -/
  i : Word
  /-- `PC` (R27) -/
  pc : Word
  /-- `STACK` (R29), the top of the stack last -/
  stack : List Word
  /-- `KEY` (R30) -/
  key : Vector Bool 16
  /-- `DT` (R31) -/
  dt : Byte
  /-- `ST` (R31) -/
  st : Byte
  /-- `HALT` (R32) -/
  halt : Option FaultRecord
  /-- MODEL: the host's schedule (R7, R247), the events it delivers next, oldest first (log entry 1) -/
  host : List HostEvent
  /-- MODEL: the random byte of the `Step` being executed (R7, R249; log entry 2) -/
  rand : Byte
  /-- MODEL: how many free bytes have been drawn (log entry 2) -/
  draws : Nat
deriving DecidableEq, Repr

/-- The state after reset (R37). The last three fields are the model's (log entries 1, 2). -/
def State.reset : State where
  mem := []
  pix := Vector.replicate 32 0
  v := Vector.replicate 16 0
  i := 0
  pc := 0x200
  stack := []
  key := Vector.replicate 16 false
  dt := 0
  st := 0
  halt := none
  host := []
  rand := 0
  draws := 0

end Sys2Proof.Machine
end

