-- ==== Sys2Proof/Machine/Ops.lean ====
section
/-! DEFINITION. Memory (spec 20_memory.md), fetch (30_encoding.md R91), the stack, the updates of PC
(10_state.md R28), taking a fault (60_exceptions.md R236) and the reset that alone leaves it (R270). -/

namespace Sys2Proof.Machine

/-- What an instruction's meaning answers. -/
abbrev Result := Host.Outcome State Fault Refusal

/-! ## One byte of memory -/

/-- What memory holds after reset (R37): the font at 0x000..0x04F, zero elsewhere. An address that
`Memory` does not list reads as this. -/
def Memory.resetByte (a : Nat) : Byte := Config.font.getD a 0

/-- The byte at an address. -/
def Memory.read : Memory → Nat → Byte
  | [], a => Memory.resetByte a
  | (k, b) :: rest, a => if k = a then b else Memory.read rest a

/-- Memory without an entry for an address. -/
def Memory.erase : Memory → Nat → Memory
  | [], _ => []
  | (k, b) :: rest, a => if k = a then Memory.erase rest a else (k, b) :: Memory.erase rest a

/-- Put an entry where the addresses go on rising. -/
def Memory.insert (a : Nat) (v : Byte) : Memory → Memory
  | [] => [(a, v)]
  | (k, b) :: rest => if a < k then (a, v) :: (k, b) :: rest else (k, b) :: Memory.insert a v rest

/-- Replace one byte and keep the canonical form: the value an unlisted address reads as is not listed. -/
def Memory.write (m : Memory) (a : Nat) (v : Byte) : Memory :=
  if v = Memory.resetByte a then m.erase a else Memory.insert a v (m.erase a)

/-- Replace the bytes from an address on, in ascending order. -/
def Memory.writeBlock (m : Memory) (a : Nat) : List Byte → Memory
  | [] => m
  | b :: bs => Memory.writeBlock (m.write a b) (a + 1) bs

/-- The canonical form of memory: addresses strictly rising, every one of them inside the address space
(R60), and no entry that only repeats what an unlisted address reads as (log entry 7). -/
abbrev Memory.wf (m : Memory) : Prop :=
  m.Pairwise (fun p q => p.1 < q.1) ∧ ∀ e ∈ m, e.1 ≤ Config.addrMax ∧ e.2 ≠ Memory.resetByte e.1

/-! ## Checked accesses -/

/-- `MemRead(addr, 1)` (R66): the error is the address that does not exist. -/
def Memory.load (m : Memory) (addr : Nat) : Except Nat Byte :=
  if addr ≤ Config.addrMax then .ok (m.read addr) else .error addr

/-- `MemWrite(addr, 1, v)` (R67). -/
def Memory.store (m : Memory) (addr : Nat) (v : Byte) : Except Nat Memory :=
  if addr ≤ Config.addrMax then .ok (m.write addr v) else .error addr

/-- `MemRead` of `n` bytes at `addr, addr + 1, ...` in ascending order; the sums do not wrap (R68). The
error is the first address above 0xFFF, which is the lowest (R233). -/
def Memory.loadBlock (m : Memory) (addr : Nat) : Nat → Except Nat (List Byte)
  | 0 => .ok []
  | n + 1 =>
    match m.load addr with
    | .error a => .error a
    | .ok b =>
      match Memory.loadBlock m (addr + 1) n with
      | .error a => .error a
      | .ok bs => .ok (b :: bs)

/-- `MemWrite` of bytes at `addr, addr + 1, ...` in ascending order (R68, R174). On an error the memory
under way is dropped, so no partial store is kept (R236). -/
def Memory.storeBlock (m : Memory) (addr : Nat) : List Byte → Except Nat Memory
  | [] => .ok m
  | b :: bs =>
    match m.store addr b with
    | .error a => .error a
    | .ok m' => Memory.storeBlock m' (addr + 1) bs

/-- Fetch (R91): the byte at `PC` is `opcode[15:8]`, the byte at `PC + 1`, an integer sum, is
`opcode[7:0]`. -/
def fetch (s : State) : Except Nat Word :=
  match s.mem.load s.pc.toNat with
  | .error a => .error a
  | .ok hi =>
    match s.mem.load (s.pc.toNat + 1) with
    | .error a => .error a
    | .ok lo => .ok (joinBytes hi lo)

/-! ## Faults -/

/-- The numeric code of a fault kind (R230). -/
def FaultKind.code : FaultKind → Nat
  | .invalidOpcode => 1
  | .stackUnderflow => 2
  | .addressOutOfRange => 3
  | .keyIndexOutOfRange => 4

/-- TAKING A FAULT (R236): every field of the state stays, and the halt latch gets the record of R230.
The recorded pc is the address of the instruction. -/
def raise (kind : FaultKind) (opcode : Option Word) (info : FaultInfo) (s : State) : Result :=
  .next { s with halt := some { kind := kind, pc := s.pc, opcode := opcode, info := info } }

/-- `Reset` (R270): every field of the state gets its value of R37. It is the only way out of a fault
(R237: there is no trap return). The model's own input fields stay: the schedule goes on and no free
byte is drawn twice (log entries 1, 2). -/
def resetMachine (s : State) : State :=
  { State.reset with host := s.host, rand := s.rand, draws := s.draws }

/-- Go on with the value of a checked access, or raise `AddressOutOfRange` for the executing instruction
(R230: the record has the 16 fetched bits and the offending address). -/
def orRaise {α : Type} (instr : Instr) (s : State) (r : Except Nat α) (k : α → Result) : Result :=
  match r with
  | .ok a => k a
  | .error addr => raise .addressOutOfRange (some (encode instr)) (.address addr) s

/-! ## PC and stack -/

/-- `PC <- PC + 2` (R28). -/
def State.advance (s : State) : State := { s with pc := s.pc + 2 }

/-- `if c then PC <- PC + 4 else PC <- PC + 2` (R28, R128). -/
def State.skipIf (s : State) (c : Bool) : State := { s with pc := if c then s.pc + 4 else s.pc + 2 }

/-- Whether a stack of this depth takes another entry: always, unless `STACK_LIMIT` is set (R29, D15). -/
def stackHasRoom (depth : Nat) : Bool :=
  match Config.stackLimit with
  | none => true
  | some limit => decide (depth < limit)

end Sys2Proof.Machine
end

