-- ==== Sys2Proof/Machine/Operands.lean ====
section
/-! DEFINITION. Operands: the registers (spec 10_state.md R23), zero extension (30_encoding.md R93), the
register block of Fx55 and Fx65 (42_index_memory.md R174, R175) and the key flags (10_state.md R30). -/

namespace Sys2Proof.Machine

/-- `V[x]` (R11, R23). -/
def State.reg (s : State) (x : RegId) : Byte := s.v[x.toNat]'x.isLt

/-- `V[x] <- b` (R11, R23). -/
def State.setReg (s : State) (x : RegId) (b : Byte) : State := { s with v := s.v.set x.toNat b x.isLt }

/-- `zext_16(v)` (R11): there is no sign extension anywhere in this hardware. -/
def zext16 {w : Nat} (b : BitVec w) : Word := b.setWidth 16

/-- The values of `V[0]` to `V[x]`, inclusive (R174). -/
def State.regsUpTo (s : State) (x : RegId) : List Byte :=
  (List.range (x.toNat + 1)).map fun k => s.reg (BitVec.ofNat 4 k)

/-- Write bytes to `V[k]`, `V[k + 1]`, ... in ascending order (R175). -/
def State.setRegsFrom (s : State) (k : Nat) : List Byte → State
  | [] => s
  | b :: bs => State.setRegsFrom (s.setReg (BitVec.ofNat 4 k) b) (k + 1) bs

/-- `KEY[k]` (R30); there are sixteen flags, and no rule reads one at another index. -/
def State.keyDown (s : State) (k : Nat) : Bool := s.key[k]?.getD false

/-- The key Fx0A delivers (R212): the scan runs over indices 0 to 15 in ascending order and each pressed
key overwrites the choice. -/
def State.lastKeyDown (s : State) : Option Nat :=
  (List.range Config.nKeys).foldl (fun found k => if s.keyDown k then some k else found) none

end Sys2Proof.Machine
end

