-- ==== Sys2Proof/Machine/Flags.lean ====
section
/-! DEFINITION. The flag VF (spec 10_state.md R24, R25) and the arithmetic that sets it (41_load_alu.md
R147 to R153). Each result is computed exactly and then narrowed to 8 bits. -/

namespace Sys2Proof.Machine

/-- A flag as the 8-bit value 0 or 1 (R24). -/
def flagByte (c : Bool) : Byte := if c then 1 else 0

/-- `VF <- (if c then 1 else 0)` (R24). -/
def State.setFlag (s : State) (c : Bool) : State := s.setReg regVF (flagByte c)

/-- Write the result to `V[x]` first and the flag to VF second (R152). -/
def State.setRegThenFlag (s : State) (x : RegId) (r : Byte) (c : Bool) : State := (s.setReg x r).setFlag c

/-- `trunc_8(a + b)` (R141, R146). -/
def add8 (a b : Byte) : Byte := BitVec.ofNat 8 (a.toNat + b.toNat)

/-- `d = a - b` as an integer, -255 .. 255, no wrap (R147, R149; conflict C1 reading B). -/
def exactDiff (a b : Byte) : Int := (a.toNat : Int) - (b.toNat : Int)

/-- `trunc_8(d)`, `d mod 256` (R147, R149). -/
def trunc8 (d : Int) : Byte := BitVec.ofInt 8 d

/-- `d > 0`, the flag of 8xy5 (R147). -/
def isPositive (d : Int) : Bool := decide (d > 0)

/-- `d < 0`, the flag of 8xy7: a borrow occurred (R149). -/
def isNegative (d : Int) : Bool := decide (d < 0)

/-- `a >> 1`, bit 7 of the result is 0 (R148). -/
def shiftRight1 (a : Byte) : Byte := a >>> 1

/-- `trunc_8(a << 1)` (R150). -/
def shiftLeft1 (a : Byte) : Byte := a <<< 1

/-- `a[0]`, the bit 8xy6 shifts out (R148). -/
def bit0 (a : Byte) : Bool := a.getLsbD 0

/-- `a[7]`, the bit 8xyE shifts out (R150). -/
def bit7 (a : Byte) : Bool := a.getLsbD 7

end Sys2Proof.Machine
end

