-- ==== Sys2Proof/Machine/Display.lean ====
section
/-! DEFINITION. The display, the sprite-blit engine and its two instructions (spec 43_display.md). -/

namespace Sys2Proof.Machine

/-- `PIX[k]` (R22), `k = cx + 64 * cy`. -/
def Display.cell (p : Display) (k : Nat) : Bool := (p[k / Config.dispW]?.getD 0).getLsbD (k % Config.dispW)

/-- `PIX[k] <- not PIX[k]` (R195). -/
def Display.toggle (p : Display) (k : Nat) : Display :=
  if h : k / Config.dispW < 32 then
    p.set (k / Config.dispW) (p[k / Config.dispW] ^^^ BitVec.twoPow 64 (k % Config.dispW))
  else p

/-- Every cell unset (R191). -/
def Display.clear : Display := Vector.replicate 32 0

/-- The target cell of sprite row `r`, column `c` (R194): the axes wrap independently. -/
def targetCell (x0 y0 r c : Nat) : Nat := (x0 + c) % Config.dispW + Config.dispW * ((y0 + r) % Config.dispH)

/-- One sprite bit (R193, R195): a 1 bit records whether its cell was set, then toggles it; a 0 bit
leaves the cell alone. The pair is the display and `collided`. -/
def blitBit (x0 y0 r : Nat) (row : Byte) (st : Display × Bool) (c : Nat) : Display × Bool :=
  if row.getLsbD (7 - c) then
    (st.1.toggle (targetCell x0 y0 r c), st.2 || st.1.cell (targetCell x0 y0 r c))
  else st

/-- One sprite row, the most significant bit first (R193). -/
def blitRow (x0 y0 r : Nat) (row : Byte) (st : Display × Bool) : Display × Bool :=
  (List.range Config.spriteW).foldl (blitBit x0 y0 r row) st

/-- The sprite rows from row `r` on, in order (R196). -/
def blitRows (x0 y0 : Nat) : Nat → List Byte → Display × Bool → Display × Bool
  | _, [], st => st
  | r, row :: rows, st => blitRows x0 y0 (r + 1) rows (blitRow x0 y0 r row st)

/-- `DrawSprite(x0, y0, h, addr)` (R190, R196): the display it leaves and `collided`, or the lowest
address above 0xFFF it would read. The rows are read before the first toggle (log entry 28). -/
def drawSprite (m : Memory) (p : Display) (x0 y0 h addr : Nat) : Except Nat (Display × Bool) :=
  match m.loadBlock addr h with
  | .error a => .error a
  | .ok rows => .ok (blitRows x0 y0 0 rows (p, false))

/-- 00E0 `CLS` (R191). -/
def execCls (s : State) : Result := .next { s with pix := Display.clear }.advance

/-- Dxyn `DRW Vx, Vy, n` (R192). -/
def execDrw (x y : RegId) (n : Nibble) (s : State) : Result :=
  orRaise (.drw x y n) s
    (drawSprite s.mem s.pix (s.reg x).toNat (s.reg y).toNat n.toNat s.i.toNat) fun r =>
      .next ({ s with pix := r.1 }.setFlag r.2).advance

end Sys2Proof.Machine
end

