-- ==== Sys2Proof/Machine/Flow.lean ====
section
/-! DEFINITION. Return, jump, call, indexed jump and the register skips (spec 40_flow.md). -/

namespace Sys2Proof.Machine

/-- 00EE `RET` (R120): the popped value is used directly. -/
def execRet (s : State) : Result :=
  match s.stack.getLast? with
  | none => raise .stackUnderflow (some (encode .ret)) .none s
  | some a => .next { s with pc := a, stack := s.stack.dropLast }

/-- 1nnn `JP nnn` (R121). -/
def execJp (nnn : Addr) (s : State) : Result := .next { s with pc := zext16 nnn }

/-- 2nnn `CALL nnn` (R122). -/
def execCall (nnn : Addr) (s : State) : Result :=
  if stackHasRoom s.stack.length then
    .next { s with stack := s.stack ++ [s.pc + 2], pc := zext16 nnn }
  else .fault .stackOverflow

/-- Bnnn `JP V0, nnn` (R123): the sum fits 16 bits and is not reduced to 12. -/
def execJpV0 (nnn : Addr) (s : State) : Result := .next { s with pc := zext16 nnn + zext16 (s.reg regV0) }

/-- 3xnn `SE Vx, nn` (R124). -/
def execSeImm (x : RegId) (nn : Byte) (s : State) : Result := .next (s.skipIf (s.reg x == nn))

/-- 4xnn `SNE Vx, nn` (R125). -/
def execSneImm (x : RegId) (nn : Byte) (s : State) : Result := .next (s.skipIf (s.reg x != nn))

/-- 5xy0 `SE Vx, Vy` (R126). -/
def execSeReg (x y : RegId) (s : State) : Result := .next (s.skipIf (s.reg x == s.reg y))

/-- 9xy0 `SNE Vx, Vy` (R127). -/
def execSneReg (x y : RegId) (s : State) : Result := .next (s.skipIf (s.reg x != s.reg y))

end Sys2Proof.Machine
end

