-- ==== Sys2Proof/Machine/IndexMemory.lean ====
section
/-! DEFINITION. The index register and the instructions that store and load through it (spec
42_index_memory.md). `I` is never modified by a memory access (R176). -/

namespace Sys2Proof.Machine

/-- Annn `LD I, nnn` (R170). -/
def execLdI (nnn : Addr) (s : State) : Result := .next { s with i := zext16 nnn }.advance

/-- Fx1E `ADD I, Vx` (R171): 16-bit wraparound, no flag. -/
def execAddI (x : RegId) (s : State) : Result :=
  .next { s with i := BitVec.ofNat 16 (s.i.toNat + (s.reg x).toNat) }.advance

/-- Fx29 `LD F, Vx` (R172): `I <- Vx * 5`, all eight bits of Vx are used. -/
def execLdF (x : RegId) (s : State) : Result :=
  .next { s with i := BitVec.ofNat 16 ((s.reg x).toNat * Config.glyphBytes) }.advance

/-- The three decimal digits of a byte, most significant first, each a whole byte (R173). -/
def decimalDigits (v : Byte) : List Byte :=
  [BitVec.ofNat 8 (v.toNat / 100), BitVec.ofNat 8 (v.toNat / 10 % 10), BitVec.ofNat 8 (v.toNat % 10)]

/-- Fx33 `LD B, Vx` (R173). -/
def execLdB (x : RegId) (s : State) : Result :=
  orRaise (.ldB x) s (s.mem.storeBlock s.i.toNat (decimalDigits (s.reg x))) fun m =>
    .next { s with mem := m }.advance

/-- Fx55 `LD [I], Vx` (R174): stores V0 to Vx inclusive. -/
def execStoreRegs (x : RegId) (s : State) : Result :=
  orRaise (.storeRegs x) s (s.mem.storeBlock s.i.toNat (s.regsUpTo x)) fun m =>
    .next { s with mem := m }.advance

/-- Fx65 `LD Vx, [I]` (R175): loads V0 to Vx inclusive. -/
def execLoadRegs (x : RegId) (s : State) : Result :=
  orRaise (.loadRegs x) s (s.mem.loadBlock s.i.toNat (x.toNat + 1)) fun bs =>
    .next (s.setRegsFrom 0 bs).advance

end Sys2Proof.Machine
end

