-- ==== Sys2Proof/Machine/KeypadTimers.lean ====
section
/-! DEFINITION. Keypad and timer instructions (spec 44_keypad_timers.md). -/

namespace Sys2Proof.Machine

/-- The key test shared by Ex9E and ExA1: go on with `KEY[V[x]]`, or raise `KeyIndexOutOfRange` carrying
the index (R210, R211, R234). -/
def withKey (instr : Instr) (x : RegId) (s : State) (k : Bool → Result) : Result :=
  if (s.reg x).toNat > 0xF then
    raise .keyIndexOutOfRange (some (encode instr)) (.index (s.reg x)) s
  else k (s.keyDown (s.reg x).toNat)

/-- Ex9E `SKP Vx` (R210). -/
def execSkp (x : RegId) (s : State) : Result := withKey (.skp x) x s fun down => .next (s.skipIf down)

/-- ExA1 `SKNP Vx` (R211). -/
def execSknp (x : RegId) (s : State) : Result := withKey (.sknp x) x s fun down => .next (s.skipIf (!down))

/-- Fx0A `LD Vx, K` (R212): while no key is down nothing changes, and the same instruction is fetched
again by the next step. -/
def execLdVxK (x : RegId) (s : State) : Result :=
  match s.lastKeyDown with
  | some k => .next (s.setReg x (BitVec.ofNat 8 k)).advance
  | none => .next s

/-- Fx07 `LD Vx, DT` (R213). -/
def execLdVxDt (x : RegId) (s : State) : Result := .next (s.setReg x s.dt).advance

/-- Fx15 `LD DT, Vx` (R214). -/
def execLdDtVx (x : RegId) (s : State) : Result := .next { s with dt := s.reg x }.advance

/-- Fx18 `LD ST, Vx` (R215). -/
def execLdStVx (x : RegId) (s : State) : Result := .next { s with st := s.reg x }.advance

end Sys2Proof.Machine
end

