-- ==== Sys2Proof/Machine/LoadAlu.lean ====
section
/-! DEFINITION. Register load, arithmetic and logic, random (spec 41_load_alu.md). The operands are read
before any write. -/

namespace Sys2Proof.Machine

/-- 6xnn `LD Vx, nn` (R140). -/
def execLdImm (x : RegId) (nn : Byte) (s : State) : Result := .next (s.setReg x nn).advance

/-- 7xnn `ADD Vx, nn` (R141): VF is not written as a carry. -/
def execAddImm (x : RegId) (nn : Byte) (s : State) : Result := .next (s.setReg x (add8 (s.reg x) nn)).advance

/-- 8xy0 `LD Vx, Vy` (R142). -/
def execLdReg (x y : RegId) (s : State) : Result := .next (s.setReg x (s.reg y)).advance

/-- 8xy1 `OR Vx, Vy` (R143). -/
def execOrReg (x y : RegId) (s : State) : Result := .next (s.setReg x (s.reg x ||| s.reg y)).advance

/-- 8xy2 `AND Vx, Vy` (R144). -/
def execAndReg (x y : RegId) (s : State) : Result := .next (s.setReg x (s.reg x &&& s.reg y)).advance

/-- 8xy3 `XOR Vx, Vy` (R145). -/
def execXorReg (x y : RegId) (s : State) : Result := .next (s.setReg x (s.reg x ^^^ s.reg y)).advance

/-- 8xy4 `ADD Vx, Vy` (R146): no carry flag. -/
def execAddReg (x y : RegId) (s : State) : Result :=
  .next (s.setReg x (add8 (s.reg x) (s.reg y))).advance

/-- 8xy5 `SUB Vx, Vy` (R147): VF = 1 exactly when `Vx - Vy > 0`. -/
def execSubReg (x y : RegId) (s : State) : Result :=
  let d := exactDiff (s.reg x) (s.reg y)
  .next (s.setRegThenFlag x (trunc8 d) (isPositive d)).advance

/-- 8xy6 `SHR Vx, Vy` (R148): Vx is shifted in place, `y` is ignored (R98). -/
def execShr (x _y : RegId) (s : State) : Result :=
  .next (s.setRegThenFlag x (shiftRight1 (s.reg x)) (bit0 (s.reg x))).advance

/-- 8xy7 `SUBN Vx, Vy` (R149): VF = 1 exactly when `Vy - Vx < 0`. -/
def execSubnReg (x y : RegId) (s : State) : Result :=
  let d := exactDiff (s.reg y) (s.reg x)
  .next (s.setRegThenFlag x (trunc8 d) (isNegative d)).advance

/-- 8xyE `SHL Vx, Vy` (R150): Vx is shifted in place, `y` is ignored (R98). -/
def execShl (x _y : RegId) (s : State) : Result :=
  .next (s.setRegThenFlag x (shiftLeft1 (s.reg x)) (bit7 (s.reg x))).advance

/-- Cxnn `RND Vx, nn` (R151): `s.rand` is the byte of this `Step(rand)` (log entry 2). -/
def execRnd (x : RegId) (nn : Byte) (s : State) : Result := .next (s.setReg x (s.rand &&& nn)).advance

end Sys2Proof.Machine
end

