-- ==== Sys2Proof/Machine/HostEvents.lean ====
section
/-! DEFINITION. The host's events other than `Step`, and what the host can observe (spec
60_exceptions.md R237, R244 to R253). -/

namespace Sys2Proof.Machine

/-- While `HALT` is set the event changes nothing (R237). -/
def unlessHalted (s : State) (f : State → State) : State := if s.halt.isSome then s else f s

/-- `if t > 0 then t <- t - 1` (R244). -/
def countDown (t : Byte) : Byte := if t.toNat > 0 then t - 1 else t

/-- `Tick` (R244): both timers, independently of each other. -/
def tick (s : State) : State :=
  unlessHalted s fun s => { s with dt := countDown s.dt, st := countDown s.st }

/-- `SetKey(i, pressed)` (R250): an index above 15 is refused with no state change. -/
def setKey (index : Nat) (pressed : Bool) (s : State) : State :=
  unlessHalted s fun s => if h : index < 16 then { s with key := s.key.set index pressed h } else s

/-- `LoadProgram(bytes)` (R248): an over-long program is refused with no state change. -/
def loadProgram (bytes : List Byte) (s : State) : State :=
  unlessHalted s fun s =>
    if bytes.length > Config.progMaxLen then s
    else { s with mem := s.mem.writeBlock Config.progBase bytes }

/-- Whether the host's event is refused (D19, U12; R248, R250, R237): an error returned to the host, no
fault of the core, and no state changes. -/
def refuses (e : HostEvent) (s : State) : Bool :=
  match e with
  | .reset => false
  | .loadProgram bytes => s.halt.isSome || decide (bytes.length > Config.progMaxLen)
  | .setKey index _ => s.halt.isSome || decide (index > 15)
  | .step _ => s.halt.isSome
  | .tick => s.halt.isSome

/-- The event the next step handles: the head of the schedule or, when the schedule says nothing more, a
`Step` with a free random byte (log entries 1, 2). -/
def nextEvent (s : State) : HostEvent :=
  match s.host with
  | [] => .step (Config.randomByte s.draws)
  | e :: _ => e

/-- The output `framebuffer` (R251): all 2048 cells, cell `(cx, cy)` at index `cx + 64 * cy`. -/
def framebuffer (s : State) : List Bool := (List.range (Config.dispW * Config.dispH)).map s.pix.cell

/-- The output `halted` (R246). -/
def halted (s : State) : Bool := s.halt.isSome

/-- The output `cls_event` of an event (R253): true for a step that executes 00E0. -/
def clsEvent (e : HostEvent) (s : State) : Bool :=
  match e with
  | .step _ =>
    !halted s &&
      match fetch s with
      | .ok op => decide (decode op = .ok .cls)
      | .error _ => false
  | _ => false

end Sys2Proof.Machine
end

