-- ==== Sys2Proof/Machine/Run.lean ====
section
/-! DEFINITION. One `Step` of the core and the delivery of one host event (spec 60_exceptions.md R235,
R237, R246, R249). -/

namespace Sys2Proof.Machine

/-- Fetch, decode, execute, with the faults of each in this order (R235, R249). -/
def runInstr (s : State) : Result :=
  match fetch s with
  | .error a => raise .addressOutOfRange none (.address a) s
  | .ok op =>
    match decode op with
    | .error _ => raise .invalidOpcode (some op) .none s
    | .ok i => exec i s

/-- `Step(rand)` (R249): one instruction; while `HALT` is set it changes nothing (R237). -/
def stepEvent (rand : Byte) (s : State) : Result :=
  if s.halt.isSome then .next s else runInstr { s with rand := rand }

/-- One event of the host (R246). A refused event is no stop: the state goes on unchanged, and
`refuses` is the answer the host gets (log entry 10). -/
def deliver (e : HostEvent) (s : State) : Result :=
  match e with
  | .reset => .next (resetMachine s)
  | .loadProgram bytes => .next (loadProgram bytes s)
  | .setKey index pressed => .next (setKey index pressed s)
  | .step rand => stepEvent rand s
  | .tick => .next (tick s)

/-- Take the next event out of the schedule; an event made up from the free random byte counts as a
draw (log entries 1, 2). -/
def takeEvent (s : State) : State :=
  match s.host with
  | [] => { s with draws := s.draws + 1 }
  | _ :: rest => { s with host := rest }

/-- The output `pc_out` (R253): the PC after a `Step`. No other event returns it. -/
def pcOut (e : HostEvent) (s : State) : Option Word :=
  match e, deliver e s with
  | .step _, .next t => some t.pc
  | _, _ => none

/-- Whether an event is a `Step`. -/
def isStep : HostEvent → Bool
  | .step _ => true
  | _ => false

/-- The PC from which two bytes can be fetched: the present one where there is room, else 0x200. -/
def fetchablePc (pc : Word) : Word := if pc.toNat < Config.addrMax then pc else 0x200

end Sys2Proof.Machine
end

