-- ==== Sys2Proof/Machine/Step.lean ====
section
/-! DEFINITION. The step of the machine: one event of the host, atomic (spec 20_memory.md R72). -/

namespace Sys2Proof.Machine

/-- Handle the next event: the schedule's head, or a `Step` when the schedule is empty (log entry 1). -/
def step (s : State) : Host.Outcome State Fault Refusal := deliver (nextEvent s) (takeEvent s)

/-- `s` with an instruction stored where the next step fetches (log entry 12): high byte first, at the
present PC, or at 0x200 where no two bytes lie at the PC. The halt latch is cleared and the scheduled
events before the next `Step` are dropped, so that the very next step runs it. -/
def State.withFetchWord (s : State) (nbits w : Nat) : State :=
  let op : Word := BitVec.ofNat 16 (w % 2 ^ nbits)
  let pc := fetchablePc s.pc
  { s with
    mem := s.mem.writeBlock pc.toNat [highByte op, lowByte op]
    pc := pc
    halt := none
    host := s.host.dropWhile fun e => !isStep e }

end Sys2Proof.Machine
end

