-- ==== Sys2Proof/WellFormed.lean ====
section
/-! DEFINITION. Which written instructions are well formed (spec 30_encoding.md R93, R100).
`Instr` carries the width of every operand field in its type, so every `Instr` is well formed; what a
programmer writes is a `SourceInstr`, and the checks stand here: the mnemonic has that operand shape,
and every operand fits its field ("an assembly error, never truncated", R100). -/

namespace Sys2Proof

/-- A register number fits the 4-bit field: 0..15 (R93, R100). -/
def regField (n : Nat) : Option RegId := if n ≤ 15 then some (BitVec.ofNat 4 n) else none

/-- `n` fits 4 bits: 0..15 (R93, R100). -/
def nibbleField (n : Nat) : Option Nibble := if n ≤ 15 then some (BitVec.ofNat 4 n) else none

/-- `nn` fits 8 bits: 0..255 (R93, R100). -/
def byteField (n : Nat) : Option Byte := if n ≤ 255 then some (BitVec.ofNat 8 n) else none

/-- `nnn` fits 12 bits: 0..0xFFF (R93, R100). -/
def addrField (n : Nat) : Option Addr := if n ≤ 0xFFF then some (BitVec.ofNat 12 n) else none

/-- A constructor of one register operand. -/
def withX (f : RegId → Instr) (x : Nat) : Option Instr := (regField x).map f

/-- A constructor of a register and an 8-bit immediate. -/
def withXI (f : RegId → Byte → Instr) (x nn : Nat) : Option Instr :=
  match regField x, byteField nn with
  | some a, some b => some (f a b)
  | _, _ => none

/-- A constructor of two registers. -/
def withXY (f : RegId → RegId → Instr) (x y : Nat) : Option Instr :=
  match regField x, regField y with
  | some a, some b => some (f a b)
  | _, _ => none

/-- A constructor of two registers and a 4-bit immediate. -/
def withXYN (f : RegId → RegId → Nibble → Instr) (x y n : Nat) : Option Instr :=
  match regField x, regField y, nibbleField n with
  | some a, some b, some c => some (f a b c)
  | _, _, _ => none

/-- A constructor of a 12-bit address. -/
def withA (f : Addr → Instr) (nnn : Nat) : Option Instr := (addrField nnn).map f

/-- The instruction a written line stands for (R95's mnemonic column, R100); none is an assembly
error. `SHR Vx` and `SHL Vx` without a second operand stand for `y = 0` (R100). A label has to be
replaced by its address first. -/
def SourceInstr.toInstr (s : SourceInstr) : Option Instr :=
  match s.mnemonic, s.operands with
  | .CLS, [] => some .cls
  | .RET, [] => some .ret
  | .JP, [.num a] => withA .jp a
  | .JP, [.reg 0, .num a] => withA .jpV0 a
  | .CALL, [.num a] => withA .call a
  | .SE, [.reg x, .num n] => withXI .seImm x n
  | .SE, [.reg x, .reg y] => withXY .seReg x y
  | .SNE, [.reg x, .num n] => withXI .sneImm x n
  | .SNE, [.reg x, .reg y] => withXY .sneReg x y
  | .LD, [.reg x, .num n] => withXI .ldImm x n
  | .LD, [.reg x, .reg y] => withXY .ldReg x y
  | .LD, [.word .I, .num a] => withA .ldI a
  | .LD, [.reg x, .word .DT] => withX .ldVxDt x
  | .LD, [.reg x, .word .K] => withX .ldVxK x
  | .LD, [.word .DT, .reg x] => withX .ldDtVx x
  | .LD, [.word .ST, .reg x] => withX .ldStVx x
  | .LD, [.word .F, .reg x] => withX .ldF x
  | .LD, [.word .B, .reg x] => withX .ldB x
  | .LD, [.word .mem, .reg x] => withX .storeRegs x
  | .LD, [.reg x, .word .mem] => withX .loadRegs x
  | .ADD, [.reg x, .num n] => withXI .addImm x n
  | .ADD, [.reg x, .reg y] => withXY .addReg x y
  | .ADD, [.word .I, .reg x] => withX .addI x
  | .OR, [.reg x, .reg y] => withXY .orReg x y
  | .AND, [.reg x, .reg y] => withXY .andReg x y
  | .XOR, [.reg x, .reg y] => withXY .xorReg x y
  | .SUB, [.reg x, .reg y] => withXY .subReg x y
  | .SHR, [.reg x, .reg y] => withXY .shr x y
  | .SHR, [.reg x] => withXY .shr x 0
  | .SUBN, [.reg x, .reg y] => withXY .subnReg x y
  | .SHL, [.reg x, .reg y] => withXY .shl x y
  | .SHL, [.reg x] => withXY .shl x 0
  | .RND, [.reg x, .num n] => withXI .rnd x n
  | .DRW, [.reg x, .reg y, .num n] => withXYN .drw x y n
  | .SKP, [.reg x] => withX .skp x
  | .SKNP, [.reg x] => withX .sknp x
  | _, _ => none

/-- A written instruction is well formed: its shape is one of R95's and every operand fits (R100). -/
def SourceInstr.wellFormed (s : SourceInstr) : Bool := s.toInstr.isSome

/-- How an instruction is written (R95's mnemonic column). -/
def Instr.toSource : Instr → SourceInstr
  | .cls => ⟨.CLS, []⟩
  | .ret => ⟨.RET, []⟩
  | .jp a => ⟨.JP, [.num a.toNat]⟩
  | .call a => ⟨.CALL, [.num a.toNat]⟩
  | .seImm x n => ⟨.SE, [.reg x.toNat, .num n.toNat]⟩
  | .sneImm x n => ⟨.SNE, [.reg x.toNat, .num n.toNat]⟩
  | .seReg x y => ⟨.SE, [.reg x.toNat, .reg y.toNat]⟩
  | .ldImm x n => ⟨.LD, [.reg x.toNat, .num n.toNat]⟩
  | .addImm x n => ⟨.ADD, [.reg x.toNat, .num n.toNat]⟩
  | .ldReg x y => ⟨.LD, [.reg x.toNat, .reg y.toNat]⟩
  | .orReg x y => ⟨.OR, [.reg x.toNat, .reg y.toNat]⟩
  | .andReg x y => ⟨.AND, [.reg x.toNat, .reg y.toNat]⟩
  | .xorReg x y => ⟨.XOR, [.reg x.toNat, .reg y.toNat]⟩
  | .addReg x y => ⟨.ADD, [.reg x.toNat, .reg y.toNat]⟩
  | .subReg x y => ⟨.SUB, [.reg x.toNat, .reg y.toNat]⟩
  | .shr x y => ⟨.SHR, [.reg x.toNat, .reg y.toNat]⟩
  | .subnReg x y => ⟨.SUBN, [.reg x.toNat, .reg y.toNat]⟩
  | .shl x y => ⟨.SHL, [.reg x.toNat, .reg y.toNat]⟩
  | .sneReg x y => ⟨.SNE, [.reg x.toNat, .reg y.toNat]⟩
  | .ldI a => ⟨.LD, [.word .I, .num a.toNat]⟩
  | .jpV0 a => ⟨.JP, [.reg 0, .num a.toNat]⟩
  | .rnd x n => ⟨.RND, [.reg x.toNat, .num n.toNat]⟩
  | .drw x y n => ⟨.DRW, [.reg x.toNat, .reg y.toNat, .num n.toNat]⟩
  | .skp x => ⟨.SKP, [.reg x.toNat]⟩
  | .sknp x => ⟨.SKNP, [.reg x.toNat]⟩
  | .ldVxDt x => ⟨.LD, [.reg x.toNat, .word .DT]⟩
  | .ldVxK x => ⟨.LD, [.reg x.toNat, .word .K]⟩
  | .ldDtVx x => ⟨.LD, [.word .DT, .reg x.toNat]⟩
  | .ldStVx x => ⟨.LD, [.word .ST, .reg x.toNat]⟩
  | .addI x => ⟨.ADD, [.word .I, .reg x.toNat]⟩
  | .ldF x => ⟨.LD, [.word .F, .reg x.toNat]⟩
  | .ldB x => ⟨.LD, [.word .B, .reg x.toNat]⟩
  | .storeRegs x => ⟨.LD, [.word .mem, .reg x.toNat]⟩
  | .loadRegs x => ⟨.LD, [.reg x.toNat, .word .mem]⟩

end Sys2Proof
end

