-- ==== Sys2Proof/Machine/Assembler.lean ====
section
/-! DEFINITION. Assembly text (spec 30_encoding.md R99 to R102): reading a line, writing an instruction,
and the bytes of a program with labels, `DB` and `ORG`. The bytes are authoritative (R99); the spelling
is notation (D21; log entry 24). -/

namespace Sys2Proof.Machine

/-! ## Writing -/

/-- A number in hexadecimal with `0x` (R100). -/
def hexText (n : Nat) : String := "0x" ++ (String.ofList ((Nat.toDigits 16 n).map Char.toUpper))

/-- The spelling of the mnemonics (R100). -/
def mnemonicNames : List (String × Mnemonic) :=
  [("CLS", .CLS), ("RET", .RET), ("JP", .JP), ("CALL", .CALL), ("SE", .SE), ("SNE", .SNE), ("LD", .LD),
   ("ADD", .ADD), ("OR", .OR), ("AND", .AND), ("XOR", .XOR), ("SUB", .SUB), ("SHR", .SHR),
   ("SUBN", .SUBN), ("SHL", .SHL), ("RND", .RND), ("DRW", .DRW), ("SKP", .SKP), ("SKNP", .SKNP)]

/-- The literal operand words (R100). -/
def wordNames : List (String × OperandWord) :=
  [("I", .I), ("DT", .DT), ("ST", .ST), ("K", .K), ("F", .F), ("B", .B), ("[I]", .mem)]

/-- The name of a value in a table of names. -/
def nameOf {α : Type} [DecidableEq α] (table : List (String × α)) (a : α) : String :=
  match table.find? fun e => decide (e.2 = a) with
  | some e => e.1
  | none => ""

/-- An operand's text: `V0`..`V9`, `VA`..`VF`, a number, a label or a literal word (R100). -/
def operandText : Operand → String
  | .reg n => "V" ++ String.ofList ((Nat.toDigits 16 n).map Char.toUpper)
  | .num n => hexText n
  | .label l => l
  | .word w => nameOf wordNames w

/-- Mnemonic, then operands separated by commas (R100). -/
def sourceText (i : SourceInstr) : String :=
  match i.operands.map operandText with
  | [] => nameOf mnemonicNames i.mnemonic
  | t :: ts => ts.foldl (fun text o => text ++ ", " ++ o) (nameOf mnemonicNames i.mnemonic ++ " " ++ t)

/-- An instruction as it is written (R95's mnemonic column). -/
def disassemble (i : Instr) : String := sourceText i.toSource

/-! ## Reading -/

/-- Blank characters between words. -/
def isBlank (c : Char) : Bool := c == ' ' || c == '\t'

/-- A text without blanks at both ends. -/
def trimBlanks (t : List Char) : List Char := ((t.dropWhile isBlank).reverse.dropWhile isBlank).reverse

/-- A text cut at every occurrence of a character. -/
def splitAt (c : Char) : List Char → List (List Char)
  | [] => [[]]
  | d :: rest =>
    match splitAt c rest with
    | [] => [[d]]
    | p :: ps => if d == c then [] :: p :: ps else (d :: p) :: ps

/-- The value of a digit below a base. DESIGN CHOICE: hexadecimal digits are read in either case, so `Va`
is `VA` and `0xab` a number; R100 writes upper case and does not speak of lower (log entry 24). -/
def digitValue (base : Nat) (c : Char) : Option Nat :=
  let n := c.toNat
  let d := if 48 ≤ n ∧ n ≤ 57 then n - 48
    else if 65 ≤ n ∧ n ≤ 70 then n - 55
    else if 97 ≤ n ∧ n ≤ 102 then n - 87
    else base
  if d < base then some d else none

/-- A row of digits, at least one, as a number. -/
def digitsValue (base : Nat) : List Char → Option Nat
  | [] => none
  | ds => ds.foldl (fun acc c =>
      match acc, digitValue base c with
      | some a, some d => some (a * base + d)
      | _, _ => none) (some 0)

/-- A number: hexadecimal with `0x`, its digits in either case (DESIGN CHOICE, log entry 24), or decimal
(R100). -/
def readNumber : List Char → Option Nat
  | '0' :: 'x' :: ds => digitsValue 16 ds
  | ds => digitsValue 10 ds

/-- A register name, `V` and one hexadecimal digit (R100), the digit in either case (DESIGN CHOICE, log
entry 24). -/
def readReg : List Char → Option Nat
  | ['V', d] => digitValue 16 d
  | _ => none

/-- The value a name stands for in a table of names. -/
def lookupName {α : Type} (table : List (String × α)) (t : List Char) : Option α :=
  (table.find? fun e => e.1.toList == t).map Prod.snd

/-- An operand: a register, a literal word, a number, else the name of a label (R100; what a label's name
may be is a DESIGN CHOICE, log entry 24). -/
def readOperand (t : List Char) : Option Operand :=
  match readReg t, lookupName wordNames t, readNumber t with
  | some r, _, _ => some (.reg r)
  | none, some w, _ => some (.word w)
  | none, none, some n => some (.num n)
  | none, none, none => if t.isEmpty then none else some (.label (String.ofList t))

/-- Every element read, or nothing. -/
def readAll {α β : Type} (f : α → Option β) : List α → Option (List β)
  | [] => some []
  | a :: rest =>
    match f a, readAll f rest with
    | some b, some bs => some (b :: bs)
    | _, _ => none

/-- The comma-separated pieces of a text; none when the text is empty. -/
def commaPieces (t : List Char) : List (List Char) :=
  if t.isEmpty then [] else (splitAt ',' t).map trimBlanks

/-- A directive or an instruction (R100, R101); numbers only in `DB` and `ORG`, and a `DB` without bytes
is read as none, are a DESIGN CHOICE (log entry 24). -/
def readStatement (t : List Char) : Option SourceLine :=
  let word := t.takeWhile fun c => !isBlank c
  let pieces := commaPieces (trimBlanks (t.dropWhile fun c => !isBlank c))
  if word == "DB".toList then (readAll readNumber pieces).map .db
  else if word == "ORG".toList then
    match pieces with
    | [p] => (readNumber p).map .org
    | _ => none
  else
    match lookupName mnemonicNames word, readAll readOperand pieces with
    | some m, some ops => some (.instr ⟨m, ops⟩)
    | _, _ => none

/-- One line of assembly text: an optional label `name:` and an optional statement; what follows `;` is
a comment (R100, and the listings of 95_test_vectors.md; the rest of the line's form is a DESIGN CHOICE,
log entry 24). -/
def readLine (line : String) : Option (List SourceLine) :=
  let t := trimBlanks (line.toList.takeWhile (· != ';'))
  let head := t.takeWhile (· != ':')
  let labelled := t.contains ':'
  let body := if labelled then trimBlanks ((t.dropWhile (· != ':')).drop 1) else t
  let label := if labelled then [SourceLine.label (String.ofList (trimBlanks head))] else []
  if body.isEmpty then some label else (readStatement body).map fun l => label ++ [l]

/-! ## Assembling -/

/-- The address of the next byte after a line that begins at an address (R100, R101). -/
def addressAfter (a : Nat) : SourceLine → Nat
  | .label _ => a
  | .instr _ => a + Config.instrBytes
  | .db bytes => a + bytes.length
  | .org b => b

/-- The labels of a program with the address of the next byte (R100). -/
def labelAddresses (a : Nat) : List SourceLine → List (String × Nat)
  | [] => []
  | l :: rest =>
    match l with
    | .label name => (name, a) :: labelAddresses (addressAfter a l) rest
    | _ => labelAddresses (addressAfter a l) rest

/-- An operand with its label replaced by the address it stands for. DESIGN CHOICE: the address is then a
number like any other, so a label may also be written for `nn` or `n` where its address fits; R100
gives a label for `nnn` only and does not say what becomes of one elsewhere (log entry 24). -/
def resolveOperand (labels : List (String × Nat)) : Operand → Option Operand
  | .label name => (labels.lookup name).map .num
  | o => some o

/-- The bytes of one line (R101, R102): one instruction, or the bytes of `DB`; an operand or a byte that
does not fit is an error. -/
def lineBytes (labels : List (String × Nat)) : SourceLine → Option (List Byte)
  | .label _ => some []
  | .org _ => some []
  | .db bytes => readAll byteField bytes
  | .instr i =>
    match readAll (resolveOperand labels) i.operands with
    | none => none
    | some ops => ((SourceInstr.mk i.mnemonic ops).toInstr).map encodeBytes

/-- The bytes of a program with their addresses, in the order of its lines. -/
def placedBytes (labels : List (String × Nat)) (a : Nat) : List SourceLine → Option (List (Nat × Byte))
  | [] => some []
  | l :: rest =>
    match lineBytes labels l, placedBytes labels (addressAfter a l) rest with
    | some bs, some more => some ((List.range bs.length).map (a + ·) |>.zip bs |>.append more)
    | _, _ => none

/-- Assemble a program, which starts with an implied `ORG 0x200` (R101). Two labels of one name are an
error (log entry 24). -/
def assemble (program : List SourceLine) : Option (List (Nat × Byte)) :=
  let labels := labelAddresses Config.progBase program
  if (labels.map Prod.fst).Nodup then placedBytes labels Config.progBase program else none

/-- The byte sequence for `LoadProgram`: the program's bytes where they follow on from 0x200 without a
gap (log entry 24). -/
def programBytes (program : List SourceLine) : Option (List Byte) :=
  match assemble program with
  | none => none
  | some placed =>
    if placed.map Prod.fst = (List.range placed.length).map (Config.progBase + ·) then
      some (placed.map Prod.snd)
    else none

/-- Assemble lines of text. -/
def assembleText (lines : List String) : Option (List Byte) :=
  match readAll readLine lines with
  | none => none
  | some ls => programBytes ls.flatten

end Sys2Proof.Machine
end

