-- ==== Sys2Proof/Safety.lean ====
section
/-! DEFINITION. The terms the claims use: what an event leaves unchanged, what a legal state is, when a
program has finished (spec 60_exceptions.md R256), and runs of the machine. -/

namespace Sys2Proof.Machine

/-! ## What stays unchanged -/

/-- Every register other than those named holds what it held. -/
def SameRegsExcept (written : List RegId) (s t : State) : Prop := ∀ r, r ∉ written → t.reg r = s.reg r

/-- Every byte of memory reads as before. -/
def SameMemory (s t : State) : Prop := ∀ a, t.mem.read a = s.mem.read a

/-- Every byte of memory outside `n` bytes from an address reads as before. -/
def SameMemoryOutside (addr n : Nat) (s t : State) : Prop :=
  ∀ a, a < addr ∨ addr + n ≤ a → t.mem.read a = s.mem.read a

/-- Every display cell is as before. -/
def SameDisplay (s t : State) : Prop := ∀ k, t.pix.cell k = s.pix.cell k

/-- Keypad, halt latch and the model's input fields are as before: no instruction that does not fault
writes one of them. -/
def SameInputs (s t : State) : Prop :=
  t.key = s.key ∧ t.halt = s.halt ∧ t.host = s.host ∧ t.rand = s.rand ∧ t.draws = s.draws

/-- Both timers are as before. -/
def SameTimers (s t : State) : Prop := t.dt = s.dt ∧ t.st = s.st

/-- Nothing but general registers and PC may have changed. -/
def OnlyRegsAndPc (s t : State) : Prop :=
  SameMemory s t ∧ SameDisplay s t ∧ t.i = s.i ∧ t.stack = s.stack ∧ SameTimers s t ∧ SameInputs s t

/-- Nothing but the named registers and PC changed, and PC went on by one instruction. -/
def WritesOnly (written : List RegId) (s t : State) : Prop :=
  t.pc = s.pc + 2 ∧ SameRegsExcept written s t ∧ OnlyRegsAndPc s t

/-- Nothing but PC changed. -/
def OnlyPc (s t : State) : Prop := SameRegsExcept [] s t ∧ OnlyRegsAndPc s t

/-- The state with the fault record of R230 in its halt latch and every other field as it was (R236). -/
def haltedBy (kind : FaultKind) (opcode : Option Word) (info : FaultInfo) (s : State) : State :=
  { s with halt := some ⟨kind, s.pc, opcode, info⟩ }

/-- Two states agree on the ten fields the spec gives the machine (R20); the model's input fields may
differ. -/
def SameArchitecture (s t : State) : Prop := t = { s with host := t.host, rand := t.rand, draws := t.draws }

/-- Change the state of an answer that goes on. -/
def mapNext (f : State → State) : Result → Result
  | .next s => .next (f s)
  | .fault r => .fault r
  | .refused r => .refused r

/-! ## Legal states -/

/-- The core executes instructions (R239). -/
def Running (s : State) : Prop := s.halt = none

/-- R233's table for the instructions: the last byte the instruction accesses has an address above
0xFFF. -/
def passesMemoryEnd (i : Instr) (s : State) : Prop :=
  match i with
  | .drw _ _ n => n ≠ 0 ∧ s.i.toNat + n.toNat - 1 > Config.addrMax
  | .ldB _ => s.i.toNat + 2 > Config.addrMax
  | .storeRegs x | .loadRegs x => s.i.toNat + x.toNat > Config.addrMax
  | _ => False

/-- A record in the halt latch is the one R230 to R234 give for the step that would run now: it names the
present PC, its opcode is the 16 bits at PC (none for a fetch fault only), its cause holds, and it
carries the lowest address above 0xFFF, or the key index. Nothing of the faulting step was kept (R236),
so the state still shows the cause. -/
def haltLegal (s : State) : Prop :=
  match s.halt with
  | none => True
  | some r =>
    r.pc = s.pc ∧
    match r.kind with
    | .invalidOpcode => ∃ op why, r.opcode = some op ∧ fetch s = .ok op ∧ decode op = .error why ∧
        r.info = .none
    | .stackUnderflow => r.opcode = some 0x00EE ∧ fetch s = .ok 0x00EE ∧ s.stack = [] ∧ r.info = .none
    | .addressOutOfRange =>
        (r.opcode = none ∧ s.pc.toNat + 1 > Config.addrMax ∧
          r.info = .address (max s.pc.toNat 0x1000)) ∨
        (∃ op i, r.opcode = some op ∧ fetch s = .ok op ∧ decode op = .ok i ∧ passesMemoryEnd i s ∧
          r.info = .address (max s.i.toNat 0x1000))
    | .keyIndexOutOfRange => ∃ op x, r.opcode = some op ∧ fetch s = .ok op ∧
        (decode op = .ok (.skp x) ∨ decode op = .ok (.sknp x)) ∧ (s.reg x).toNat > 0xF ∧
        r.info = .index (s.reg x)

/-- The addresses PC and the stack can hold: no step leaves `PC` above 0x10FE (the greatest target of
Bnnn, R28), and no 2nnn pushes more than 0x1000 (R120). -/
def addressesBounded (s : State) : Prop := s.pc.toNat ≤ 0x10FE ∧ ∀ a ∈ s.stack, a.toNat ≤ 0x1000

/-- The invariant of the machine. -/
def Inv (s : State) : Prop := s.mem.wf ∧ addressesBounded s ∧ haltLegal s

/-! ## Runs -/

/-- `t` comes after some number of steps from `s`. -/
inductive Reaches (s : State) : State → Prop where
  | here : Reaches s s
  | next {t u : State} : Reaches s t → step t = .next u → Reaches s u

/-- A program has finished (R256): `HALT = none` and PC is the address of a `1nnn` whose `nnn` equals
that address. -/
def finished (s : State) : Bool :=
  !halted s &&
    match fetch s with
    | .error _ => false
    | .ok op =>
      match decode op with
      | .ok (.jp nnn) => decide (zext16 nnn = s.pc)
      | _ => false

end Sys2Proof.Machine
end

