-- ==== Sys2Proof/Certificates/Slice0/Obligations.lean ====
section
/-! DEFINITION. The statements about the model, from the numbered rules of the spec. A docstring names
the rule a statement formalises; where the spec marks a rule as its own decision the docstring names the
decision. `WritesOnly`, `OnlyPc` and the other frame words are in Sys2Proof/Safety.lean. -/

open Sys2Proof Sys2Proof.Machine

/-! ## Encoding -/

/-- R102 (derived in the spec from R92, R95): no bit of an operand is dropped, for all 34 instructions
and every value of every operand. -/
def Obligations.DecodeOfEncodeGivesTheInstruction : Prop :=
  ∀ i : Instr, decode (encode i) = .ok i

/-- R96, R102: a decoded opcode is the encoding of its instruction, the ignored `y` of 8xy6 and 8xyE
included (R98). So the opcode a fault record carries is the fetched one (log entry 13). -/
def Obligations.EncodeOfDecodeGivesTheOpcode : Prop :=
  ∀ (op : Word) (i : Instr), decode op = .ok i → encode i = op

/-- R95, R96: decode and the opcode map are the same decoder. An opcode decodes to the instruction of a
row exactly when `op & mask = match` for that row (decision D14 for the exact match of four rows; log
entry 17). -/
def Obligations.DecodeAgreesWithTheOpcodeMap : Prop :=
  ∀ op : Word,
    (∀ i, decode op = .ok i → ∃ row, opcodeTable[i.row]? = some row ∧ row.matches op = true) ∧
    (∀ k row, opcodeTable[k]? = some row → row.matches op = true → ∃ i, decode op = .ok i ∧ i.row = k)

/-- R62, R90: bytes and what follows them. Decoding the stored bytes of an instruction gives it back and
leaves the rest. -/
def Obligations.StoredBytesDecodeToTheInstruction : Prop :=
  ∀ (i : Instr) (rest : List Byte), decodeBytes (encodeBytes i ++ rest) = .ok (i, rest)

/-- Words written out from the patterns of R95: at least one legal word for each of the sixteen top
nibbles (R94), and one illegal word for each row of R97's table. That 0x01E0, 0x5121 and 0x9127 are
illegal is the exact-match reading of 00E0, 5xy0 and 9xy0, the spec's own decision D14 (log entry 17). -/
def Obligations.WordsOfTheTableDecode : Prop :=
  (decode 0x00E0 = .ok .cls ∧ decode 0x00EE = .ok .ret ∧ decode 0x1ABC = .ok (.jp 0xABC) ∧
    decode 0x2ABC = .ok (.call 0xABC) ∧ decode 0x3A42 = .ok (.seImm 0xA 0x42) ∧
    decode 0x4B37 = .ok (.sneImm 0xB 0x37) ∧ decode 0x5120 = .ok (.seReg 1 2) ∧
    decode 0x6A2B = .ok (.ldImm 0xA 0x2B) ∧ decode 0x7305 = .ok (.addImm 3 5) ∧
    decode 0x8127 = .ok (.subnReg 1 2) ∧ decode 0x9340 = .ok (.sneReg 3 4) ∧
    decode 0xA2F0 = .ok (.ldI 0x2F0) ∧ decode 0xB345 = .ok (.jpV0 0x345) ∧
    decode 0xC30F = .ok (.rnd 3 0x0F) ∧ decode 0xD125 = .ok (.drw 1 2 5) ∧
    decode 0xE59E = .ok (.skp 5) ∧ decode 0xF40A = .ok (.ldVxK 4) ∧ decode 0xF355 = .ok (.storeRegs 3)) ∧
  (decode 0x01E0 = .error .family0 ∧ decode 0x5121 = .error .family5 ∧ decode 0x8128 = .error .family8 ∧
    decode 0x9127 = .error .family9 ∧ decode 0xE19F = .error .familyE ∧ decode 0xF316 = .error .familyF)

/-! ## Reset, fetch and step -/

/-- R37: what reset leaves. The first clause is the source's; the values of the others are the spec's own
decisions D3, D4 and D8 (log entry 4). `Config.font` is the parameter FONT, its bytes PRESUMED (log
entry 3). -/
def Obligations.ResetLeavesTheListedValues : Prop :=
  (∀ k, k < 80 → Config.font[k]? = some (State.reset.mem.read k)) ∧
  (∀ a, 0x50 ≤ a → a ≤ 0xFFF → State.reset.mem.read a = 0) ∧
  (∀ k, k < 2048 → State.reset.pix.cell k = false) ∧
  (∀ r, State.reset.reg r = 0) ∧ State.reset.i = 0 ∧ State.reset.pc = 0x200 ∧ State.reset.stack = [] ∧
  (∀ k, k < 16 → State.reset.keyDown k = false) ∧ State.reset.dt = 0 ∧ State.reset.st = 0 ∧
  State.reset.halt = none

/-- R270: `Reset` may be delivered in any state, halted or not, and leaves what reset leaves; the halt
latch is cleared. What the spec marks as its own there are the values (D2, D3, D4; log entry 4). -/
def Obligations.ResetEventGivesTheResetState : Prop :=
  ∀ s : State, ∃ t, deliver .reset s = .next t ∧ SameArchitecture State.reset t

/-- R62: the byte at PC is the high byte of the opcode, the byte at PC + 1 the low byte. -/
def Obligations.FetchIsBigEndian : Prop :=
  ∀ s : State, s.pc.toNat + 1 ≤ 0xFFF → ∃ op, fetch s = .ok op ∧
    op.toNat = (s.mem.read s.pc.toNat).toNat * 256 + (s.mem.read (s.pc.toNat + 1)).toNat

/-- R91, R233, R235, R236 (decisions D6, D7, D8): a fetch above 0xFFF latches `AddressOutOfRange` with no
opcode and the first address that does not exist, and keeps every other field. -/
def Obligations.FetchAboveMemoryFaults : Prop :=
  ∀ (rand : Byte) (s : State), s.halt = none →
    (s.pc.toNat = 0xFFF → stepEvent rand s =
      .next (haltedBy .addressOutOfRange none (.address 0x1000) { s with rand := rand })) ∧
    (s.pc.toNat > 0xFFF → stepEvent rand s =
      .next (haltedBy .addressOutOfRange none (.address s.pc.toNat) { s with rand := rand }))

/-- R97, R231, R236 (decisions D7, D8, D14): executing an illegal encoding latches `InvalidOpcode` with
the fetched bits and keeps every other field, whatever the state. -/
def Obligations.IllegalOpcodeFaults : Prop :=
  ∀ (rand : Byte) (s : State) (op : Word) (why : IllegalOpcode), s.halt = none → fetch s = .ok op →
    decode op = .error why →
    stepEvent rand s = .next (haltedBy .invalidOpcode (some op) .none { s with rand := rand })

/-- R271: a `Step` before any `LoadProgram` fetches 0x0000 from 0x200 and faults. It rests on the zeroed
memory of decision D4 (log entry 4), the exact match of D14 and the latch of D8 (log entries 17, 8). -/
def Obligations.StepBeforeLoadFaults : Prop :=
  ∀ rand : Byte, ∃ t, stepEvent rand State.reset = .next t ∧
    t.halt = some ⟨.invalidOpcode, 0x200, some 0x0000, .none⟩ ∧ t.pc = 0x200

/-- R249: when the next event is a `Step` and the bytes at PC decode to `i`, the step of the machine is
`exec i`, on the state with the event taken out of the schedule and the step's random byte in place
(`takeEvent` and `rand` are the model's, log entries 1, 2). -/
def Obligations.StepRunsTheDecodedInstruction : Prop :=
  ∀ (s : State) (rand : Byte) (op : Word) (i : Instr), s.halt = none → nextEvent s = .step rand →
    fetch s = .ok op → decode op = .ok i → step s = exec i { takeEvent s with rand := rand }

/-- R249 says that a step always terminates and returns control. That it then answers a next state in
every case is the model's form of it: a fault of R230 and a step of a halted core are next states (log
entry 8, on decision D8), 2nnn goes on at any depth of the stack (log entry 9, on D15), and a refused
event is an unchanged next state (log entry 10, on D19). -/
def Obligations.EveryStepAnswersANextState : Prop :=
  ∀ s : State, ∃ t, step s = .next t

/-- R237 (decision D8): while `HALT` is set, every event but `Reset` changes nothing. -/
def Obligations.HaltedCoreIgnoresEvents : Prop :=
  ∀ (s : State) (e : HostEvent), s.halt ≠ none → e ≠ .reset → deliver e s = .next s

/-- R256 (decision D23): a finished program is a fixed point of `Step`. -/
def Obligations.FinishedProgramStays : Prop :=
  ∀ (s : State) (rand : Byte), finished s = true → ∃ t, stepEvent rand s = .next t ∧ SameArchitecture s t ∧
    t.host = s.host ∧ t.draws = s.draws

/-! ## Host events -/

/-- R244: `Tick` decrements both timers by one, floored at zero, and changes nothing else. (While halted
nothing happens: HaltedCoreIgnoresEvents.) -/
def Obligations.TickCountsBothTimersDown : Prop :=
  ∀ s : State, s.halt = none → ∃ t, deliver .tick s = .next t ∧
    t.dt.toNat = s.dt.toNat - 1 ∧ t.st.toNat = s.st.toNat - 1 ∧ t.pc = s.pc ∧
    SameRegsExcept [] s t ∧ SameMemory s t ∧ SameDisplay s t ∧ t.i = s.i ∧ t.stack = s.stack ∧
    SameInputs s t

/-- R250 (decision D19 for the refusal): `SetKey` sets one flag and keeps the other fifteen; an index
above 15 is refused with no state change. -/
def Obligations.SetKeySetsOneFlag : Prop :=
  ∀ (s : State) (k : Nat) (pressed : Bool), s.halt = none →
    (k < 16 → refuses (.setKey k pressed) s = false ∧ ∃ t, deliver (.setKey k pressed) s = .next t ∧
      t.keyDown k = pressed ∧ (∀ j, j ≠ k → t.keyDown j = s.keyDown j) ∧ t = { s with key := t.key }) ∧
    (16 ≤ k → refuses (.setKey k pressed) s = true ∧ deliver (.setKey k pressed) s = .next s)

/-- R248 (decision D19): `LoadProgram` copies the bytes to 0x200 upward in order and changes nothing else;
a sequence longer than 3584 bytes is refused with no state change. -/
def Obligations.LoadProgramCopiesTheBytes : Prop :=
  ∀ (s : State) (bytes : List Byte), s.halt = none →
    (bytes.length ≤ 3584 → refuses (.loadProgram bytes) s = false ∧
      ∃ t, deliver (.loadProgram bytes) s = .next t ∧
        (∀ k (h : k < bytes.length), t.mem.read (0x200 + k) = bytes[k]) ∧
        SameMemoryOutside 0x200 bytes.length s t ∧ t = { s with mem := t.mem }) ∧
    (3584 < bytes.length → refuses (.loadProgram bytes) s = true ∧
      deliver (.loadProgram bytes) s = .next s)

/-! ## Control flow -/

/-- R121. -/
def Obligations.JumpSetsPc : Prop :=
  ∀ (nnn : Addr) (s : State), ∃ t, exec (.jp nnn) s = .next t ∧ t.pc.toNat = nnn.toNat ∧ OnlyPc s t

/-- R122: the address after the call is pushed, whatever the depth of the stack. -/
def Obligations.CallPushesReturnAddress : Prop :=
  ∀ (nnn : Addr) (s : State), ∃ t, exec (.call nnn) s = .next t ∧ t.pc.toNat = nnn.toNat ∧
    t.stack = s.stack ++ [s.pc + 2] ∧ SameRegsExcept [] s t ∧ SameMemory s t ∧ SameDisplay s t ∧
    t.i = s.i ∧ SameTimers s t ∧ SameInputs s t

/-- R120: the popped value goes to PC as it is; with an empty stack `StackUnderflow` is raised and PC and
STACK are unchanged (the latch, and that nothing else changes, are decisions D7, D8; log entry 8). -/
def Obligations.ReturnPopsThePc : Prop :=
  (∀ (s : State) (below : List Word) (top : Word), s.stack = below ++ [top] →
    ∃ t, exec .ret s = .next t ∧ t.pc = top ∧ t.stack = below ∧ SameRegsExcept [] s t ∧ SameMemory s t ∧
      SameDisplay s t ∧ t.i = s.i ∧ SameTimers s t ∧ SameInputs s t) ∧
  (∀ s : State, s.stack = [] →
    exec .ret s = .next (haltedBy .stackUnderflow (some 0x00EE) .none s))

/-- Source example S9 (95_test_vectors.md): after CALL, a RET that finds the stack as CALL left it
resumes behind the call with the stack as before. -/
def Obligations.ReturnResumesBehindTheCall : Prop :=
  ∀ (nnn : Addr) (s t u : State), exec (.call nnn) s = .next t → u.stack = t.stack →
    ∃ w, exec .ret u = .next w ∧ w.pc = s.pc + 2 ∧ w.stack = s.stack

/-- R123 (decision D17 for "not reduced modulo 4096"): the exact sum goes to PC. -/
def Obligations.IndexedJumpAddsV0 : Prop :=
  ∀ (nnn : Addr) (s : State), ∃ t, exec (.jpV0 nnn) s = .next t ∧
    t.pc.toNat = nnn.toNat + (s.reg 0).toNat ∧ OnlyPc s t

/-- R124, R125. -/
def Obligations.ImmediateSkips : Prop :=
  ∀ (x : RegId) (nn : Byte) (s : State),
    (∃ t, exec (.seImm x nn) s = .next t ∧ t.pc = (if s.reg x = nn then s.pc + 4 else s.pc + 2) ∧
      OnlyPc s t) ∧
    (∃ t, exec (.sneImm x nn) s = .next t ∧ t.pc = (if s.reg x ≠ nn then s.pc + 4 else s.pc + 2) ∧
      OnlyPc s t)

/-- R126, R127. -/
def Obligations.RegisterSkips : Prop :=
  ∀ (x y : RegId) (s : State),
    (∃ t, exec (.seReg x y) s = .next t ∧ t.pc = (if s.reg x = s.reg y then s.pc + 4 else s.pc + 2) ∧
      OnlyPc s t) ∧
    (∃ t, exec (.sneReg x y) s = .next t ∧ t.pc = (if s.reg x ≠ s.reg y then s.pc + 4 else s.pc + 2) ∧
      OnlyPc s t)

/-! ## Load, arithmetic and logic -/

/-- R140, R142. -/
def Obligations.LoadFormsWriteVx : Prop :=
  ∀ (x y : RegId) (nn : Byte) (s : State),
    (∃ t, exec (.ldImm x nn) s = .next t ∧ t.reg x = nn ∧ WritesOnly [x] s t) ∧
    (∃ t, exec (.ldReg x y) s = .next t ∧ t.reg x = s.reg y ∧ WritesOnly [x] s t)

/-- R141: the sum modulo 256; VF is no carry. -/
def Obligations.AddImmediateWraps : Prop :=
  ∀ (x : RegId) (nn : Byte) (s : State), ∃ t, exec (.addImm x nn) s = .next t ∧
    (t.reg x).toNat = ((s.reg x).toNat + nn.toNat) % 256 ∧ WritesOnly [x] s t

/-- R143, R144, R145 (decision D16: VF is not written), bit by bit. -/
def Obligations.LogicIsBitwise : Prop :=
  ∀ (x y : RegId) (s : State),
    (∃ t, exec (.orReg x y) s = .next t ∧ WritesOnly [x] s t ∧
      ∀ k, (t.reg x).getLsbD k = ((s.reg x).getLsbD k || (s.reg y).getLsbD k)) ∧
    (∃ t, exec (.andReg x y) s = .next t ∧ WritesOnly [x] s t ∧
      ∀ k, (t.reg x).getLsbD k = ((s.reg x).getLsbD k && (s.reg y).getLsbD k)) ∧
    (∃ t, exec (.xorReg x y) s = .next t ∧ WritesOnly [x] s t ∧
      ∀ k, (t.reg x).getLsbD k = ((s.reg x).getLsbD k ^^ (s.reg y).getLsbD k))

/-- R146 (decision D11): the sum modulo 256 and no carry flag. -/
def Obligations.AddRegistersSetsNoCarry : Prop :=
  ∀ (x y : RegId) (s : State), ∃ t, exec (.addReg x y) s = .next t ∧
    (t.reg x).toNat = ((s.reg x).toNat + (s.reg y).toNat) % 256 ∧ WritesOnly [x] s t

/-- R147, R152 (decisions D10, D12): VF is 1 exactly when Vx was greater; the result is lost when x is F.
-/
def Obligations.SubtractFlagsGreater : Prop :=
  ∀ (x y : RegId) (s : State), ∃ t, exec (.subReg x y) s = .next t ∧
    t.reg 0xF = (if (s.reg x).toNat > (s.reg y).toNat then 1 else 0) ∧
    (x ≠ 0xF → (t.reg x).toNat = ((s.reg x).toNat + 256 - (s.reg y).toNat) % 256) ∧
    WritesOnly [x, 0xF] s t

/-- R149, R152 (decisions D10, D12): VF is 1 exactly when a borrow occurred. -/
def Obligations.ReverseSubtractFlagsBorrow : Prop :=
  ∀ (x y : RegId) (s : State), ∃ t, exec (.subnReg x y) s = .next t ∧
    t.reg 0xF = (if (s.reg y).toNat < (s.reg x).toNat then 1 else 0) ∧
    (x ≠ 0xF → (t.reg x).toNat = ((s.reg y).toNat + 256 - (s.reg x).toNat) % 256) ∧
    WritesOnly [x, 0xF] s t

/-- R148, R150, R152 (decisions D10, D16): Vx is shifted in place, VF gets the bit shifted out, `y` plays
no part. -/
def Obligations.ShiftsMoveVxByOne : Prop :=
  ∀ (x y : RegId) (s : State),
    (∃ t, exec (.shr x y) s = .next t ∧ (t.reg 0xF).toNat = (s.reg x).toNat % 2 ∧
      (x ≠ 0xF → (t.reg x).toNat = (s.reg x).toNat / 2) ∧ WritesOnly [x, 0xF] s t) ∧
    (∃ t, exec (.shl x y) s = .next t ∧ (t.reg 0xF).toNat = (s.reg x).toNat / 128 ∧
      (x ≠ 0xF → (t.reg x).toNat = (s.reg x).toNat * 2 % 256) ∧ WritesOnly [x, 0xF] s t)

/-- R151 (decision D20): the random byte of the step, whatever it is, ANDed with nn. -/
def Obligations.RandomIsMasked : Prop :=
  ∀ (x : RegId) (nn rand : Byte) (s : State), s.rand = rand → ∃ t, exec (.rnd x nn) s = .next t ∧
    t.reg x = rand &&& nn ∧ t.reg x &&& ~~~nn = 0 ∧ WritesOnly [x] s t

/-! ## Index register and memory -/

/-- R170. -/
def Obligations.LoadIndex : Prop :=
  ∀ (nnn : Addr) (s : State), ∃ t, exec (.ldI nnn) s = .next t ∧ t.i.toNat = nnn.toNat ∧
    t.pc = s.pc + 2 ∧ SameRegsExcept [] s t ∧ SameMemory s t ∧ SameDisplay s t ∧ t.stack = s.stack ∧
    SameTimers s t ∧ SameInputs s t

/-- R171: modulo 2^16, and no flag. -/
def Obligations.AddToIndexWraps : Prop :=
  ∀ (x : RegId) (s : State), ∃ t, exec (.addI x) s = .next t ∧
    t.i.toNat = (s.i.toNat + (s.reg x).toNat) % 65536 ∧ t.pc = s.pc + 2 ∧ SameRegsExcept [] s t ∧
    SameMemory s t ∧ SameDisplay s t ∧ t.stack = s.stack ∧ SameTimers s t ∧ SameInputs s t

/-- R172 (decision D16 for "not masked"). -/
def Obligations.FontAddressIsFiveTimesVx : Prop :=
  ∀ (x : RegId) (s : State), ∃ t, exec (.ldF x) s = .next t ∧ t.i.toNat = (s.reg x).toNat * 5 ∧
    t.pc = s.pc + 2 ∧ SameRegsExcept [] s t ∧ SameMemory s t ∧ SameDisplay s t ∧ t.stack = s.stack ∧
    SameTimers s t ∧ SameInputs s t

/-- R173 (decisions D6, and D16 for I unchanged) where its three addresses exist (the fault is
BlockAccessAboveMemoryFaults): the digits of Vx,
most significant first, each digit below ten, and every other byte as before. -/
def Obligations.DecimalDigitsAreStored : Prop :=
  ∀ (x : RegId) (s : State), s.i.toNat + 2 ≤ 0xFFF → ∃ t, exec (.ldB x) s = .next t ∧
    (s.reg x).toNat = (t.mem.read s.i.toNat).toNat * 100 + (t.mem.read (s.i.toNat + 1)).toNat * 10 +
      (t.mem.read (s.i.toNat + 2)).toNat ∧
    (t.mem.read (s.i.toNat + 1)).toNat < 10 ∧ (t.mem.read (s.i.toNat + 2)).toNat < 10 ∧
    SameMemoryOutside s.i.toNat 3 s t ∧ t.pc = s.pc + 2 ∧ t.i = s.i ∧ SameRegsExcept [] s t ∧
    SameDisplay s t ∧ t.stack = s.stack ∧ SameTimers s t ∧ SameInputs s t

/-- R174, R176 (decisions D6, D16) where its addresses exist: V0 to Vx inclusive, I unchanged, every other
byte as before. -/
def Obligations.RegisterBlockIsStored : Prop :=
  ∀ (x : RegId) (s : State), s.i.toNat + x.toNat ≤ 0xFFF → ∃ t, exec (.storeRegs x) s = .next t ∧
    (∀ r : RegId, r.toNat ≤ x.toNat → t.mem.read (s.i.toNat + r.toNat) = s.reg r) ∧
    SameMemoryOutside s.i.toNat (x.toNat + 1) s t ∧ t.pc = s.pc + 2 ∧ t.i = s.i ∧
    SameRegsExcept [] s t ∧ SameDisplay s t ∧ t.stack = s.stack ∧ SameTimers s t ∧ SameInputs s t

/-- R175, R176 (decisions D6, D16) where its addresses exist: V0 to Vx inclusive get the bytes, the other
registers, I and memory keep theirs. -/
def Obligations.RegisterBlockIsLoaded : Prop :=
  ∀ (x : RegId) (s : State), s.i.toNat + x.toNat ≤ 0xFFF → ∃ t, exec (.loadRegs x) s = .next t ∧
    (∀ r : RegId, r.toNat ≤ x.toNat → t.reg r = s.mem.read (s.i.toNat + r.toNat)) ∧
    (∀ r : RegId, x.toNat < r.toNat → t.reg r = s.reg r) ∧ t.pc = s.pc + 2 ∧ OnlyRegsAndPc s t

/-- Source example S8: storing V0 to Vx and loading them again from the same I restores the values,
whatever the registers held in between. -/
def Obligations.StoreThenLoadRestoresRegisters : Prop :=
  ∀ (x : RegId) (s t u : State), s.i.toNat + x.toNat ≤ 0xFFF → exec (.storeRegs x) s = .next t →
    u.mem = t.mem → u.i = t.i →
    ∃ w, exec (.loadRegs x) u = .next w ∧ ∀ r : RegId, r.toNat ≤ x.toNat → w.reg r = s.reg r

/-- R173, R174, R175, R196, R233, R236 (decisions D6, D7, D8): an instruction that would touch an address
above 0xFFF latches `AddressOutOfRange` with the lowest such address and changes nothing else, not even
the bytes, registers or cells in range. -/
def Obligations.BlockAccessAboveMemoryFaults : Prop :=
  ∀ (x y : RegId) (n : Nibble) (s : State),
    (s.i.toNat + 2 > 0xFFF → exec (.ldB x) s =
      .next (haltedBy .addressOutOfRange (some (encode (.ldB x))) (.address (max s.i.toNat 0x1000)) s)) ∧
    (s.i.toNat + x.toNat > 0xFFF → exec (.storeRegs x) s =
      .next (haltedBy .addressOutOfRange (some (encode (.storeRegs x)))
        (.address (max s.i.toNat 0x1000)) s)) ∧
    (s.i.toNat + x.toNat > 0xFFF → exec (.loadRegs x) s =
      .next (haltedBy .addressOutOfRange (some (encode (.loadRegs x)))
        (.address (max s.i.toNat 0x1000)) s)) ∧
    (n ≠ 0 → s.i.toNat + n.toNat - 1 > 0xFFF → exec (.drw x y n) s =
      .next (haltedBy .addressOutOfRange (some (encode (.drw x y n)))
        (.address (max s.i.toNat 0x1000)) s))

/-- R74 (derived in the spec): a fetch sees what Fx55 stored, and what Fx33 stored, the very next fetch
included. The premises keep every stored address inside memory (beyond it the instruction faults,
BlockAccessAboveMemoryFaults). -/
def Obligations.FetchSeesStoredRegisters : Prop :=
  (∀ (x r : RegId) (s t u : State), s.i.toNat + x.toNat ≤ 0xFFF → exec (.storeRegs x) s = .next t →
    r.toNat + 1 ≤ x.toNat → u.mem = t.mem → u.pc.toNat = s.i.toNat + r.toNat →
    fetch u = .ok (joinBytes (s.reg r) (s.reg (r + 1)))) ∧
  (∀ (x : RegId) (s t u : State), s.i.toNat + 2 ≤ 0xFFF → exec (.ldB x) s = .next t → u.mem = t.mem →
    (u.pc.toNat = s.i.toNat → ∃ op, fetch u = .ok op ∧
      op.toNat = (s.reg x).toNat / 100 * 256 + (s.reg x).toNat / 10 % 10) ∧
    (u.pc.toNat = s.i.toNat + 1 → ∃ op, fetch u = .ok op ∧
      op.toNat = (s.reg x).toNat / 10 % 10 * 256 + (s.reg x).toNat % 10))

/-- The canonical form is canonical: two memories in it that read alike everywhere are equal data (log
entry 7). -/
def Obligations.CanonicalMemoriesThatReadAlikeAreEqual : Prop :=
  ∀ m n : Memory, m.wf → n.wf → (∀ a, m.read a = n.read a) → m = n

/-! ## Display -/

/-- R191: every cell is unset, PC goes on, no register changes, and among the steps of a running core it
is exactly the step that fetches 00E0 that gives the output `cls_event` (R253; the other events and the
halted core are in OutputsShowTheStateAndTheStep). -/
def Obligations.ClearUnsetsEveryCell : Prop :=
  (∀ s : State, ∃ t, exec .cls s = .next t ∧ (∀ k, k < 2048 → t.pix.cell k = false) ∧ t.pc = s.pc + 2 ∧
    SameRegsExcept [] s t ∧ SameMemory s t ∧ t.i = s.i ∧ t.stack = s.stack ∧ SameTimers s t ∧
    SameInputs s t) ∧
  (∀ (s : State) (rand : Byte), s.halt = none →
    (clsEvent (.step rand) s = true ↔ fetch s = .ok 0x00E0))

/-- R193, R194, R195 through `DrawSprite` (R196), for every coordinate and at most fifteen rows: a cell
changes exactly when a 1 bit of the sprite lands on it, and the answer is `collided` exactly when a 1
bit lands on a cell that was set (R197(a), (b)). -/
def Obligations.SpriteTogglesExactlyItsTargets : Prop :=
  ∀ (m : Memory) (p q : Display) (x0 y0 h addr : Nat) (hit : Bool), h ≤ 15 →
    drawSprite m p x0 y0 h addr = .ok (q, hit) →
    (∀ k, k < 2048 → (q.cell k ≠ p.cell k ↔ ∃ r c, r < h ∧ c < 8 ∧
      (m.read (addr + r)).getLsbD (7 - c) = true ∧ k = (x0 + c) % 64 + 64 * ((y0 + r) % 32))) ∧
    (hit = true ↔ ∃ r c, r < h ∧ c < 8 ∧ (m.read (addr + r)).getLsbD (7 - c) = true ∧
      p.cell ((x0 + c) % 64 + 64 * ((y0 + r) % 32)) = true)

/-- R197(b), R197(c): drawing the same sprite again restores the display, and the second draw collides
exactly when a 1 bit landed on a cell that was unset before the first. -/
def Obligations.DrawingTwiceRestoresTheDisplay : Prop :=
  ∀ (m : Memory) (p q : Display) (x0 y0 h addr : Nat) (hit : Bool), h ≤ 15 →
    drawSprite m p x0 y0 h addr = .ok (q, hit) →
    ∃ hit2, drawSprite m q x0 y0 h addr = .ok (p, hit2) ∧
      (hit2 = true ↔ ∃ r c, r < h ∧ c < 8 ∧ (m.read (addr + r)).getLsbD (7 - c) = true ∧
        p.cell ((x0 + c) % 64 + 64 * ((y0 + r) % 32)) = false)

/-- R192 (decisions D6, D16) where its rows exist (n = 0 reads nothing): the display is the one
`DrawSprite` leaves, at the coordinates Vx, Vy from before VF is written; VF is always written; I and
memory stay (R176). -/
def Obligations.DrawWritesDisplayAndFlag : Prop :=
  ∀ (x y : RegId) (n : Nibble) (s : State), (n = 0 ∨ s.i.toNat + n.toNat ≤ 0x1000) →
    ∃ t q hit, exec (.drw x y n) s = .next t ∧
      drawSprite s.mem s.pix (s.reg x).toNat (s.reg y).toNat n.toNat s.i.toNat = .ok (q, hit) ∧
      t.pix = q ∧ t.reg 0xF = (if hit then 1 else 0) ∧ t.pc = s.pc + 2 ∧ SameRegsExcept [0xF] s t ∧
      SameMemory s t ∧ t.i = s.i ∧ t.stack = s.stack ∧ SameTimers s t ∧ SameInputs s t

/-! ## Keypad and timers -/

/-- R210, R211, R234, R236 (decisions D9, D7, D8): the level of the flag that Vx names decides the skip; a
key number above 15 latches `KeyIndexOutOfRange` with the index and changes nothing else. -/
def Obligations.KeySkipsTestTheFlag : Prop :=
  ∀ (x : RegId) (s : State),
    ((s.reg x).toNat ≤ 15 →
      (∃ t, exec (.skp x) s = .next t ∧
        t.pc = (if s.keyDown (s.reg x).toNat then s.pc + 4 else s.pc + 2) ∧ OnlyPc s t) ∧
      (∃ t, exec (.sknp x) s = .next t ∧
        t.pc = (if s.keyDown (s.reg x).toNat then s.pc + 2 else s.pc + 4) ∧ OnlyPc s t)) ∧
    ((s.reg x).toNat > 15 →
      exec (.skp x) s =
        .next (haltedBy .keyIndexOutOfRange (some (encode (.skp x))) (.index (s.reg x)) s) ∧
      exec (.sknp x) s =
        .next (haltedBy .keyIndexOutOfRange (some (encode (.sknp x))) (.index (s.reg x)) s))

/-- R212 (decision D13 for the tie): with a key down Vx gets the greatest pressed index and PC goes on;
with none down nothing changes. -/
def Obligations.WaitForKeyTakesTheGreatestKey : Prop :=
  ∀ (x : RegId) (s : State),
    (∀ k, k < 16 → s.keyDown k = true → (∀ j, k < j → j < 16 → s.keyDown j = false) →
      ∃ t, exec (.ldVxK x) s = .next t ∧ (t.reg x).toNat = k ∧ WritesOnly [x] s t) ∧
    ((∀ k, k < 16 → s.keyDown k = false) → exec (.ldVxK x) s = .next s)

/-- R213, R214, R215. -/
def Obligations.TimerAccess : Prop :=
  ∀ (x : RegId) (s : State),
    (∃ t, exec (.ldVxDt x) s = .next t ∧ t.reg x = s.dt ∧ WritesOnly [x] s t) ∧
    (∃ t, exec (.ldDtVx x) s = .next t ∧ t.dt = s.reg x ∧ t.st = s.st ∧ t.pc = s.pc + 2 ∧
      SameRegsExcept [] s t ∧ SameMemory s t ∧ SameDisplay s t ∧ t.i = s.i ∧ t.stack = s.stack ∧
      SameInputs s t) ∧
    (∃ t, exec (.ldStVx x) s = .next t ∧ t.st = s.reg x ∧ t.dt = s.dt ∧ t.pc = s.pc + 2 ∧
      SameRegsExcept [] s t ∧ SameMemory s t ∧ SameDisplay s t ∧ t.i = s.i ∧ t.stack = s.stack ∧
      SameInputs s t)

/-! ## The whole machine -/

/-- R28: how each instruction changes PC, the complete table: every instruction that executes, and every
step that faults, in fetch, in decode or in execution. -/
def Obligations.EveryInstructionSetsPcAsListed : Prop :=
  (∀ (instr : Instr) (s t : State), s.halt = none → exec instr s = .next t → t.halt = none →
    match instr with
    | .ret => s.stack.getLast? = some t.pc
    | .jp nnn => t.pc.toNat = nnn.toNat
    | .call nnn => t.pc.toNat = nnn.toNat ∧ t.stack.getLast? = some (s.pc + 2)
    | .jpV0 nnn => t.pc.toNat = nnn.toNat + (s.reg 0).toNat
    | .seImm x nn => t.pc = if s.reg x = nn then s.pc + 4 else s.pc + 2
    | .sneImm x nn => t.pc = if s.reg x ≠ nn then s.pc + 4 else s.pc + 2
    | .seReg x y => t.pc = if s.reg x = s.reg y then s.pc + 4 else s.pc + 2
    | .sneReg x y => t.pc = if s.reg x ≠ s.reg y then s.pc + 4 else s.pc + 2
    | .skp x => t.pc = if s.keyDown (s.reg x).toNat then s.pc + 4 else s.pc + 2
    | .sknp x => t.pc = if s.keyDown (s.reg x).toNat then s.pc + 2 else s.pc + 4
    | .ldVxK _ => t.pc = if ∃ k, k < 16 ∧ s.keyDown k = true then s.pc + 2 else s.pc
    | _ => t.pc = s.pc + 2) ∧
  (∀ (s t : State) (rand : Byte), s.halt = none → stepEvent rand s = .next t → t.halt ≠ none →
    t.pc = s.pc)

/-- R21, R22, R26, R29, R30, R31 and decision D16, over all 34 instructions: which instructions may
change memory, display, I, stack and timers; none changes the keypad flags or the model's input
fields. -/
def Obligations.OnlyTheListedInstructionsWrite : Prop :=
  ∀ (instr : Instr) (s t : State), exec instr s = .next t →
    (t.mem ≠ s.mem → ∃ x, instr = .ldB x ∨ instr = .storeRegs x) ∧
    (t.pix ≠ s.pix → instr = .cls ∨ ∃ x y n, instr = .drw x y n) ∧
    (t.i ≠ s.i → (∃ nnn, instr = .ldI nnn) ∨ ∃ x, instr = .addI x ∨ instr = .ldF x) ∧
    (t.stack ≠ s.stack → instr = .ret ∨ ∃ nnn, instr = .call nnn) ∧
    (t.dt ≠ s.dt → ∃ x, instr = .ldDtVx x) ∧ (t.st ≠ s.st → ∃ x, instr = .ldStVx x) ∧
    t.key = s.key ∧ t.host = s.host ∧ t.rand = s.rand ∧ t.draws = s.draws

/-- R24, R25 (decision D16, and D10 for the flag last): VF changes only by a flag instruction, by an
instruction whose x is F, or by Fx65 with x = F; a flag instruction other than on x = F leaves 0 or 1
there. -/
def Obligations.OnlyTheListedInstructionsWriteVF : Prop :=
  ∀ (instr : Instr) (s t : State), s.halt = none → exec instr s = .next t → t.halt = none →
    (match instr with
      | .subReg _ _ | .shr _ _ | .subnReg _ _ | .shl _ _ | .drw _ _ _ => t.reg 0xF = 0 ∨ t.reg 0xF = 1
      | .ldImm x _ | .addImm x _ | .ldReg x _ | .orReg x _ | .andReg x _ | .xorReg x _ | .addReg x _
      | .rnd x _ | .ldVxDt x | .ldVxK x | .loadRegs x => x ≠ 0xF → t.reg 0xF = s.reg 0xF
      | _ => t.reg 0xF = s.reg 0xF)

/-- R36(d), R31, over all 34 instructions: the program cannot see ST. With another value in ST every
instruction does the same to everything else, and only Fx18 puts a value there. -/
def Obligations.SoundTimerIsInvisible : Prop :=
  ∀ (instr : Instr) (s : State) (b : Byte),
    (∀ x, instr ≠ .ldStVx x) →
    exec instr { s with st := b } = mapNext (fun t => { t with st := b }) (exec instr s)

/-- R36(b), over all 34 instructions: the keypad flags are visible only through Ex9E, ExA1 and Fx0A. -/
def Obligations.KeypadIsSeenOnlyByKeyInstructions : Prop :=
  ∀ (instr : Instr) (s : State) (keys : Vector Bool 16),
    (∀ x, instr ≠ .skp x ∧ instr ≠ .sknp x ∧ instr ≠ .ldVxK x) →
    exec instr { s with key := keys } = mapNext (fun t => { t with key := keys }) (exec instr s)

/-- R36(c), R22, over all 34 instructions but Dxyn: no instruction can read a display cell. -/
def Obligations.DisplayIsSeenOnlyByDraw : Prop :=
  ∀ (instr : Instr) (s : State) (p : Display) (t : State), (∀ x y n, instr ≠ .drw x y n) →
    exec instr s = .next t → ∃ q, exec instr { s with pix := p } = .next { t with pix := q }

/-- R235, R236 (decisions D7, D8): a fault is precise. In a halted state that a step left, executing the
instruction at PC again gives the same record and the same state, so nothing of the faulting step was
kept. -/
def Obligations.FaultingStepIsPrecise : Prop :=
  ∀ (s t : State) (rand : Byte), s.halt = none → stepEvent rand s = .next t → t.halt ≠ none →
    ∃ r, t = { s with rand := rand, halt := some r } ∧ r.pc = s.pc ∧
      runInstr { t with halt := none } = .next t

/-- The invariant holds after reset: R37's values, the spec's decisions D3 and D4 (log entry 4). -/
def Obligations.ResetMeetsTheInvariant : Prop := Inv State.reset

/-- Every step keeps the invariant, with any event of the host: memory stays canonical inside 0..0xFFF
(R60; log entry 7), PC stays at most 0x10FE and a stack entry at most 0x1000 (R27, R28, R120), and a fault
record is the one R230 to R235 give for the instruction at PC, its opcode the fetched bits and its cause
still showing in the state (`haltLegal`). That the latch exists and a fault keeps everything else are the
spec's own decisions D7 and D8, the checks themselves D6, D9 and D14 (log entries 8, 17, 22, 23). -/
def Obligations.EveryStepKeepsTheInvariant : Prop :=
  ∀ s t : State, Inv s → step s = .next t → Inv t

/-! ## Outputs -/

/-- R246, R251, R253, R237 (decisions D1 and D8): what the host sees of an event and of a state.
`cls_event` comes exactly with a `Step` of a running core that fetches 00E0, `pc_out` exactly with a
`Step` and is the PC after it (the unchanged PC when halted), `halted` is the latch, and `framebuffer`
shows cell `(cx, cy)` at index `cx + 64 * cy`, 2048 in all. The outputs are functions in the model (log
entry 11). -/
def Obligations.OutputsShowTheStateAndTheStep : Prop :=
  ∀ (e : HostEvent) (s : State),
    (clsEvent e s = true ↔ ∃ rand, e = .step rand ∧ s.halt = none ∧ fetch s = .ok 0x00E0) ∧
    (∀ pc, pcOut e s = some pc ↔ ∃ rand t, e = .step rand ∧ stepEvent rand s = .next t ∧ t.pc = pc) ∧
    (halted s = true ↔ s.halt ≠ none) ∧
    (framebuffer s).length = 2048 ∧
    (∀ cx cy, cx < 64 → cy < 32 →
      (framebuffer s)[cx + 64 * cy]? = some ((s.pix[cy]?.getD 0).getLsbD cx))
end

