-- ==== Sys2Proof/Laws/Decode.lean ====
section
/-! SUPPORT. The fields of an encoded instruction, format by format, and the bytes of a word. Each field is
compared bit by bit. -/

namespace Sys2Proof

/-- The two bytes of a word make the word again (R62). -/
@[simp] theorem joinBytes_high_low (op : Word) : joinBytes (highByte op) (lowByte op) = op := by
  apply BitVec.eq_of_getLsbD_eq
  intro j hj
  interval_cases j <;> simp [joinBytes, highByte, lowByte]

/-- The value of two joined bytes: the first is the more significant (R62). -/
theorem joinBytes_toNat (hi lo : Byte) : (joinBytes hi lo).toNat = hi.toNat * 256 + lo.toNat := by
  have h : hi.toNat < 256 := hi.isLt
  have h2 : lo.toNat < 2 ^ 8 := lo.isLt
  simp only [joinBytes, BitVec.toNat_or, BitVec.toNat_shiftLeft, BitVec.toNat_setWidth]
  rw [Nat.mod_eq_of_lt (show hi.toNat < 2 ^ 16 by omega), Nat.mod_eq_of_lt (show lo.toNat < 2 ^ 16 by omega),
    Nat.mod_eq_of_lt (show hi.toNat <<< 8 < 2 ^ 16 by rw [Nat.shiftLeft_eq]; omega),
    ← Nat.shiftLeft_add_eq_or_of_lt h2, Nat.shiftLeft_eq]

/-! ## Format `A` -/

theorem fieldFam_encodeA (m : Word) (nnn : Addr) :
    fieldFam (encodeA m nnn) = fieldFam m := by
  apply BitVec.eq_of_getLsbD_eq
  intro j hj
  interval_cases j <;> simp [fieldFam, encodeA, placeNNN, BitVec.getLsbD_of_ge]

theorem fieldNNN_encodeA (m : Word) (nnn : Addr) :
    fieldNNN (encodeA m nnn) = fieldNNN m ||| nnn := by
  apply BitVec.eq_of_getLsbD_eq
  intro j hj
  interval_cases j <;> simp [fieldNNN, encodeA, placeNNN]

/-! ## Format `XI` -/

theorem fieldFam_encodeXI (m : Word) (x : RegId) (nn : Byte) :
    fieldFam (encodeXI m x nn) = fieldFam m := by
  apply BitVec.eq_of_getLsbD_eq
  intro j hj
  interval_cases j <;> simp [fieldFam, encodeXI, placeX, placeNN, BitVec.getLsbD_of_ge]

theorem fieldX_encodeXI (m : Word) (x : RegId) (nn : Byte) :
    fieldX (encodeXI m x nn) = fieldX m ||| x := by
  apply BitVec.eq_of_getLsbD_eq
  intro j hj
  interval_cases j <;> simp [fieldX, encodeXI, placeX, placeNN, BitVec.getLsbD_of_ge]

theorem fieldNN_encodeXI (m : Word) (x : RegId) (nn : Byte) :
    fieldNN (encodeXI m x nn) = fieldNN m ||| nn := by
  apply BitVec.eq_of_getLsbD_eq
  intro j hj
  interval_cases j <;> simp [fieldNN, encodeXI, placeX, placeNN]

/-! ## Format `XY` -/

theorem fieldFam_encodeXY (m : Word) (x y : RegId) :
    fieldFam (encodeXY m x y) = fieldFam m := by
  apply BitVec.eq_of_getLsbD_eq
  intro j hj
  interval_cases j <;> simp [fieldFam, encodeXY, placeX, placeY, BitVec.getLsbD_of_ge]

theorem fieldX_encodeXY (m : Word) (x y : RegId) :
    fieldX (encodeXY m x y) = fieldX m ||| x := by
  apply BitVec.eq_of_getLsbD_eq
  intro j hj
  interval_cases j <;> simp [fieldX, encodeXY, placeX, placeY, BitVec.getLsbD_of_ge]

theorem fieldY_encodeXY (m : Word) (x y : RegId) :
    fieldY (encodeXY m x y) = fieldY m ||| y := by
  apply BitVec.eq_of_getLsbD_eq
  intro j hj
  interval_cases j <;> simp [fieldY, encodeXY, placeX, placeY]

theorem fieldN_encodeXY (m : Word) (x y : RegId) :
    fieldN (encodeXY m x y) = fieldN m := by
  apply BitVec.eq_of_getLsbD_eq
  intro j hj
  interval_cases j <;> simp [fieldN, encodeXY, placeX, placeY]

/-! ## Format `XYN` -/

theorem fieldFam_encodeXYN (m : Word) (x y : RegId) (n : Nibble) :
    fieldFam (encodeXYN m x y n) = fieldFam m := by
  apply BitVec.eq_of_getLsbD_eq
  intro j hj
  interval_cases j <;> simp [fieldFam, encodeXYN, placeX, placeY, placeN, BitVec.getLsbD_of_ge]

theorem fieldX_encodeXYN (m : Word) (x y : RegId) (n : Nibble) :
    fieldX (encodeXYN m x y n) = fieldX m ||| x := by
  apply BitVec.eq_of_getLsbD_eq
  intro j hj
  interval_cases j <;> simp [fieldX, encodeXYN, placeX, placeY, placeN, BitVec.getLsbD_of_ge]

theorem fieldY_encodeXYN (m : Word) (x y : RegId) (n : Nibble) :
    fieldY (encodeXYN m x y n) = fieldY m ||| y := by
  apply BitVec.eq_of_getLsbD_eq
  intro j hj
  interval_cases j <;> simp [fieldY, encodeXYN, placeX, placeY, placeN, BitVec.getLsbD_of_ge]

theorem fieldN_encodeXYN (m : Word) (x y : RegId) (n : Nibble) :
    fieldN (encodeXYN m x y n) = fieldN m ||| n := by
  apply BitVec.eq_of_getLsbD_eq
  intro j hj
  interval_cases j <;> simp [fieldN, encodeXYN, placeX, placeY, placeN]

/-! ## Format `XF` -/

theorem fieldFam_encodeXF (m : Word) (x : RegId) :
    fieldFam (encodeXF m x) = fieldFam m := by
  apply BitVec.eq_of_getLsbD_eq
  intro j hj
  interval_cases j <;> simp [fieldFam, encodeXF, placeX, BitVec.getLsbD_of_ge]

theorem fieldX_encodeXF (m : Word) (x : RegId) :
    fieldX (encodeXF m x) = fieldX m ||| x := by
  apply BitVec.eq_of_getLsbD_eq
  intro j hj
  interval_cases j <;> simp [fieldX, encodeXF, placeX]

theorem fieldNN_encodeXF (m : Word) (x : RegId) :
    fieldNN (encodeXF m x) = fieldNN m := by
  apply BitVec.eq_of_getLsbD_eq
  intro j hj
  interval_cases j <;> simp [fieldNN, encodeXF, placeX]

end Sys2Proof
end

