-- ==== Sys2Proof/Laws/Display.lean ====
section
/-! SUPPORT. The display cell by cell: toggling one cell, and displays that agree on every cell. -/

namespace Sys2Proof.Machine

theorem targetCell_lt (x0 y0 r c : Nat) : targetCell x0 y0 r c < 2048 := by
  simp only [targetCell, Config.dispW, Config.dispH]
  omega

/-- A target cell lies in the sprite row's display row and the sprite column's display column (R194). -/
theorem targetCell_eq_iff (x0 y0 r c r' c' : Nat) : targetCell x0 y0 r c = targetCell x0 y0 r' c' ↔
    (x0 + c) % 64 = (x0 + c') % 64 ∧ (y0 + r) % 32 = (y0 + r') % 32 := by
  simp only [targetCell, Config.dispW, Config.dispH]
  omega

/-- Everything one toggle does: it inverts its own cell and no other (R195). -/
theorem Display.cell_toggle (p : Display) {j k : Nat} (hj : j < 2048) (hk : k < 2048) :
    (p.toggle k).cell j = (p.cell j ^^ decide (j = k)) := by
  have h1 : j / 64 < 32 := by omega
  have h2 : k / 64 < 32 := by omega
  have h3 : j % 64 < 64 := Nat.mod_lt _ (by omega)
  simp only [Display.cell, Display.toggle, Config.dispW, h2, dif_pos, Vector.getElem?_eq_getElem h1,
    Option.getD_some]
  by_cases hr : k / 64 = j / 64
  · rw [Vector.getElem_set, if_pos hr, BitVec.getLsbD_xor, BitVec.getLsbD_twoPow]
    have : p[k / 64] = p[j / 64] := by simp only [hr]
    rw [this]
    congr 1
    by_cases hjk : j = k
    · subst hjk; simp [h3]
    · have : ¬ k % 64 = j % 64 := by omega
      simp [hjk, this]
  · have hjk : j ≠ k := fun e => hr (by rw [e])
    rw [Vector.getElem_set_ne _ _ hr]
    simp [hjk]

/-- Two displays that agree on all 2048 cells are equal. -/
theorem Display.ext_cell {p q : Display} (h : ∀ k, k < 2048 → p.cell k = q.cell k) : p = q := by
  apply Vector.ext
  intro i hi
  apply BitVec.eq_of_getLsbD_eq
  intro j hj
  have := h (64 * i + j) (by omega)
  have e1 : (64 * i + j) / 64 = i := by omega
  have e2 : (64 * i + j) % 64 = j := by omega
  simpa only [Display.cell, Config.dispW, e1, e2, Vector.getElem?_eq_getElem hi, Option.getD_some] using this

@[simp] theorem Display.cell_clear (k : Nat) : Display.clear.cell k = false := by
  simp only [Display.cell, Display.clear, Vector.getElem?_replicate]
  split <;> simp

/-- Drawing where every row can be read: the rows are read first, then laid over the display (R196). -/
theorem drawSprite_ok {m : Memory} {h addr : Nat} {rows : List Byte} (hr : m.loadBlock addr h = .ok rows)
    (p : Display) (x0 y0 : Nat) : drawSprite m p x0 y0 h addr = .ok (blitRows x0 y0 0 rows (p, false)) := by
  simp [drawSprite, hr]

/-- Drawing where a row cannot be read answers the address of the load. -/
theorem drawSprite_error {m : Memory} {h addr a : Nat} (hr : m.loadBlock addr h = .error a)
    (p : Display) (x0 y0 : Nat) : drawSprite m p x0 y0 h addr = .error a := by
  simp [drawSprite, hr]

end Sys2Proof.Machine
end

