-- ==== Sys2Proof/Laws/Memory.lean ====
section
/-! SUPPORT. What the memory operations do: read after write, the canonical form, and one lemma for each
block access. -/

namespace Sys2Proof.Machine

/-! ## Reading -/

@[simp] theorem Memory.read_nil (a : Nat) : Memory.read [] a = Memory.resetByte a := rfl

theorem Memory.read_erase (m : Memory) (a b : Nat) :
    (m.erase a).read b = if b = a then Memory.resetByte a else m.read b := by
  induction m with
  | nil =>
    by_cases h : b = a
    · subst h; simp [Memory.erase]
    · simp [Memory.erase, h]
  | cons e rest ih =>
    obtain ⟨k, v⟩ := e
    unfold Memory.erase
    split
    · rename_i hk
      rw [ih]
      subst hk
      by_cases h : b = k
      · simp [h]
      · simp [h, Memory.read, Ne.symm h]
    · rename_i hk
      by_cases h : b = a
      · subst h; simp [Memory.read, hk, ih]
      · simp [Memory.read, ih, h]

theorem Memory.read_insert (m : Memory) (a : Nat) (v : Byte) (b : Nat) (hm : ∀ e ∈ m, e.1 ≠ a) :
    (Memory.insert a v m).read b = if b = a then v else m.read b := by
  induction m with
  | nil =>
    by_cases h : b = a
    · subst h; simp [Memory.insert, Memory.read]
    · simp [Memory.insert, Memory.read, h, Ne.symm h]
  | cons e rest ih =>
    obtain ⟨k, w⟩ := e
    have hk : k ≠ a := hm (k, w) (by simp)
    have hrest := ih fun e he => hm e (by simp [he])
    unfold Memory.insert
    split
    · by_cases h : b = a
      · subst h; simp [Memory.read]
      · simp [Memory.read, h, Ne.symm h]
    · by_cases h : b = a
      · subst h; simp [Memory.read, hk, hrest]
      · simp [Memory.read, hrest, h]

theorem Memory.mem_erase {m : Memory} {a : Nat} {e : Host.Cell} (h : e ∈ m.erase a) : e ∈ m ∧ e.1 ≠ a := by
  induction m with
  | nil => simp [Memory.erase] at h
  | cons p rest ih =>
    obtain ⟨k, v⟩ := p
    unfold Memory.erase at h
    split at h
    · obtain ⟨h1, h2⟩ := ih h
      exact ⟨by simp [h1], h2⟩
    · rename_i hk
      rcases List.mem_cons.1 h with h | h
      · subst h; exact ⟨by simp, hk⟩
      · obtain ⟨h1, h2⟩ := ih h
        exact ⟨by simp [h1], h2⟩

theorem Memory.mem_insert {m : Memory} {a : Nat} {v : Byte} {e : Host.Cell}
    (h : e ∈ Memory.insert a v m) : e = (a, v) ∨ e ∈ m := by
  induction m with
  | nil => simp [Memory.insert] at h; exact .inl h
  | cons p rest ih =>
    obtain ⟨k, w⟩ := p
    unfold Memory.insert at h
    split at h
    · simpa using h
    · rcases List.mem_cons.1 h with h | h
      · exact .inr (by simp [h])
      · rcases ih h with h | h
        · exact .inl h
        · exact .inr (by simp [h])

/-- Everything one write does to what memory reads as, in any memory. -/
theorem Memory.read_write_eq (m : Memory) (a b : Nat) (v : Byte) :
    (m.write a v).read b = if b = a then v else m.read b := by
  unfold Memory.write
  split
  · rename_i hv
    rw [Memory.read_erase, hv]
  · rw [Memory.read_insert _ _ _ _ fun e he => (Memory.mem_erase he).2, Memory.read_erase]
    by_cases h : b = a <;> simp [h]

/-- Everything a block write does to what memory reads as. -/
theorem Memory.read_writeBlock (m : Memory) (a : Nat) (bs : List Byte) (b : Nat) :
    (m.writeBlock a bs).read b =
      if h : a ≤ b ∧ b < a + bs.length then bs[b - a]'(by omega) else m.read b := by
  induction bs generalizing m a with
  | nil => rw [dif_neg (by simp)]; rfl
  | cons v bs ih =>
    rw [Memory.writeBlock, ih]
    by_cases h1 : b = a
    · subst h1
      rw [dif_neg (by omega), dif_pos (by simp), Memory.read_write_eq]
      simp
    · by_cases h2 : a + 1 ≤ b ∧ b < a + 1 + bs.length
      · rw [dif_pos h2, dif_pos (by simp; omega), List.getElem_cons, dif_neg (by omega)]
        congr 1
      · rw [dif_neg h2, dif_neg (by simp; omega), Memory.read_write_eq, if_neg h1]

/-! ## The canonical form -/

theorem Memory.nil_wf : Memory.wf [] := ⟨.nil, by simp⟩

theorem Memory.erase_wf {m : Memory} (h : m.wf) (a : Nat) : (m.erase a).wf := by
  refine ⟨?_, fun e he => h.2 e (Memory.mem_erase he).1⟩
  have hp := h.1
  clear h
  induction m with
  | nil => exact .nil
  | cons p rest ih =>
    obtain ⟨k, v⟩ := p
    rw [List.pairwise_cons] at hp
    unfold Memory.erase
    split
    · exact ih hp.2
    · exact List.pairwise_cons.2 ⟨fun e he => hp.1 e (Memory.mem_erase he).1, ih hp.2⟩

theorem Memory.insert_sorted {m : Memory} (h : m.Pairwise fun p q => p.1 < q.1) {a : Nat} (v : Byte)
    (hm : ∀ e ∈ m, e.1 ≠ a) : (Memory.insert a v m).Pairwise fun p q => p.1 < q.1 := by
  induction m with
  | nil => simp [Memory.insert]
  | cons p rest ih =>
    obtain ⟨k, w⟩ := p
    have hk : k ≠ a := hm (k, w) (by simp)
    rw [List.pairwise_cons] at h
    unfold Memory.insert
    split
    · rename_i hlt
      refine List.pairwise_cons.2 ⟨fun e he => ?_, List.pairwise_cons.2 h⟩
      rcases List.mem_cons.1 he with he | he
      · subst he; exact hlt
      · have := h.1 e he
        simp only at this ⊢
        omega
    · refine List.pairwise_cons.2 ⟨fun e he => ?_, ih h.2 fun e he => hm e (by simp [he])⟩
      rcases Memory.mem_insert he with he | he
      · subst he
        simp only
        omega
      · exact h.1 e he

/-- One write inside the address space keeps the canonical form. -/
theorem Memory.write_wf {m : Memory} (h : m.wf) {a : Nat} (ha : a ≤ Config.addrMax) (v : Byte) :
    (m.write a v).wf := by
  have he := Memory.erase_wf h a
  unfold Memory.write
  split
  · exact he
  · rename_i hv
    refine ⟨Memory.insert_sorted he.1 v fun e hm => (Memory.mem_erase hm).2, fun e hm => ?_⟩
    rcases Memory.mem_insert hm with rfl | hm
    · exact ⟨ha, hv⟩
    · exact he.2 e hm

/-- A block write inside the address space keeps the canonical form. -/
theorem Memory.writeBlock_wf {m : Memory} (h : m.wf) {a : Nat} {bs : List Byte}
    (ha : a + bs.length ≤ Config.addrMax + 1) : (m.writeBlock a bs).wf := by
  induction bs generalizing m a with
  | nil => exact h
  | cons v bs ih =>
    simp only [List.length_cons] at ha
    exact ih (Memory.write_wf h (by omega) v) (by omega)

/-! ## Checked accesses -/

theorem Memory.load_ok (m : Memory) {a : Nat} (h : a ≤ Config.addrMax) : m.load a = .ok (m.read a) := by
  simp [Memory.load, h]

theorem Memory.load_error (m : Memory) {a : Nat} (h : Config.addrMax < a) : m.load a = .error a := by
  simp [Memory.load, Nat.not_le.2 h]

/-- A block store whose addresses all exist is the block write. -/
theorem Memory.storeBlock_ok (m : Memory) (a : Nat) (bs : List Byte)
    (h : a + bs.length ≤ Config.addrMax + 1) : m.storeBlock a bs = .ok (m.writeBlock a bs) := by
  induction bs generalizing m a with
  | nil => rfl
  | cons v bs ih =>
    simp only [List.length_cons] at h
    have ha : a ≤ Config.addrMax := by omega
    simp only [Memory.storeBlock, Memory.store, if_pos ha, Memory.writeBlock]
    exact ih _ _ (by omega)

/-- A block store that leaves the address space answers the lowest address above 0xFFF. -/
theorem Memory.storeBlock_error (m : Memory) (a : Nat) (bs : List Byte) (hne : bs ≠ [])
    (h : Config.addrMax + 1 < a + bs.length) : m.storeBlock a bs = .error (max a (Config.addrMax + 1)) := by
  induction bs generalizing m a with
  | nil => exact absurd rfl hne
  | cons v bs ih =>
    simp only [List.length_cons] at h
    by_cases ha : a ≤ Config.addrMax
    · simp only [Memory.storeBlock, Memory.store, if_pos ha]
      rw [ih _ _ (by intro e; simp [e] at h; omega) (by omega)]
      congr 1
      omega
    · simp only [Memory.storeBlock, Memory.store, if_neg ha]
      congr 1
      omega

/-- A block load whose addresses all exist gives the bytes in order. -/
theorem Memory.loadBlock_ok (m : Memory) (a n : Nat) (h : a + n ≤ Config.addrMax + 1) :
    m.loadBlock a n = .ok ((List.range n).map fun k => m.read (a + k)) := by
  induction n generalizing a with
  | zero => rfl
  | succ n ih =>
    have ha : a ≤ Config.addrMax := by omega
    simp only [Memory.loadBlock, Memory.load, if_pos ha, ih (a + 1) (by omega), List.range_succ_eq_map,
      List.map_cons, List.map_map, Nat.add_zero]
    congr 2
    apply List.map_congr_left
    intro k _
    simp [Nat.add_assoc, Nat.add_comm 1 k]

/-- A block load that leaves the address space answers the lowest address above 0xFFF. -/
theorem Memory.loadBlock_error (m : Memory) (a n : Nat) (hn : n ≠ 0) (h : Config.addrMax + 1 < a + n) :
    m.loadBlock a n = .error (max a (Config.addrMax + 1)) := by
  induction n generalizing a with
  | zero => exact absurd rfl hn
  | succ n ih =>
    by_cases ha : a ≤ Config.addrMax
    · simp only [Memory.loadBlock, Memory.load, if_pos ha]
      rw [ih (a + 1) (by omega) (by omega)]
      simp only
      congr 1
      omega
    · simp only [Memory.loadBlock, Memory.load, if_neg ha]
      congr 1
      omega

end Sys2Proof.Machine
end

