-- ==== Sys2Proof/Laws/State.lean ====
section
/-! SUPPORT. The fields of a state after each named update: one lemma per field that a proof asks for,
true by unfolding the update once. -/

namespace Sys2Proof.Machine

/-! ## Registers -/

@[simp] theorem State.reg_setReg_same (s : State) (x : RegId) (b : Byte) : (s.setReg x b).reg x = b := by
  simp [State.reg, State.setReg]

theorem State.reg_setReg_other (s : State) {x r : RegId} (b : Byte) (h : r ≠ x) :
    (s.setReg x b).reg r = s.reg r := by
  have hne : x.toNat ≠ r.toNat := fun e => h (BitVec.eq_of_toNat_eq e.symm)
  simp [State.reg, State.setReg, Vector.getElem_set_ne, hne]

theorem State.reg_setReg (s : State) (x r : RegId) (b : Byte) :
    (s.setReg x b).reg r = if r = x then b else s.reg r := by
  by_cases h : r = x
  · subst h; simp
  · simp [h, State.reg_setReg_other s b h]

@[simp] theorem State.setReg_mem (s : State) (x b) : (s.setReg x b).mem = s.mem := rfl
@[simp] theorem State.setReg_pix (s : State) (x b) : (s.setReg x b).pix = s.pix := rfl
@[simp] theorem State.setReg_i (s : State) (x b) : (s.setReg x b).i = s.i := rfl
@[simp] theorem State.setReg_pc (s : State) (x b) : (s.setReg x b).pc = s.pc := rfl
@[simp] theorem State.setReg_stack (s : State) (x b) : (s.setReg x b).stack = s.stack := rfl
@[simp] theorem State.setReg_key (s : State) (x b) : (s.setReg x b).key = s.key := rfl
@[simp] theorem State.setReg_dt (s : State) (x b) : (s.setReg x b).dt = s.dt := rfl
@[simp] theorem State.setReg_st (s : State) (x b) : (s.setReg x b).st = s.st := rfl
@[simp] theorem State.setReg_halt (s : State) (x b) : (s.setReg x b).halt = s.halt := rfl
@[simp] theorem State.setReg_host (s : State) (x b) : (s.setReg x b).host = s.host := rfl
@[simp] theorem State.setReg_rand (s : State) (x b) : (s.setReg x b).rand = s.rand := rfl
@[simp] theorem State.setReg_draws (s : State) (x b) : (s.setReg x b).draws = s.draws := rfl

/-! ## PC -/

@[simp] theorem State.advance_pc (s : State) : s.advance.pc = s.pc + 2 := rfl
@[simp] theorem State.advance_reg (s : State) (r) : s.advance.reg r = s.reg r := rfl
@[simp] theorem State.advance_v (s : State) : s.advance.v = s.v := rfl
@[simp] theorem State.advance_mem (s : State) : s.advance.mem = s.mem := rfl
@[simp] theorem State.advance_pix (s : State) : s.advance.pix = s.pix := rfl
@[simp] theorem State.advance_i (s : State) : s.advance.i = s.i := rfl
@[simp] theorem State.advance_stack (s : State) : s.advance.stack = s.stack := rfl
@[simp] theorem State.advance_key (s : State) : s.advance.key = s.key := rfl
@[simp] theorem State.advance_dt (s : State) : s.advance.dt = s.dt := rfl
@[simp] theorem State.advance_st (s : State) : s.advance.st = s.st := rfl
@[simp] theorem State.advance_halt (s : State) : s.advance.halt = s.halt := rfl
@[simp] theorem State.advance_host (s : State) : s.advance.host = s.host := rfl
@[simp] theorem State.advance_rand (s : State) : s.advance.rand = s.rand := rfl
@[simp] theorem State.advance_draws (s : State) : s.advance.draws = s.draws := rfl

theorem State.skipIf_pc (s : State) (c) : (s.skipIf c).pc = if c then s.pc + 4 else s.pc + 2 := rfl
@[simp] theorem State.skipIf_reg (s : State) (c r) : (s.skipIf c).reg r = s.reg r := rfl
@[simp] theorem State.skipIf_v (s : State) (c) : (s.skipIf c).v = s.v := rfl
@[simp] theorem State.skipIf_mem (s : State) (c) : (s.skipIf c).mem = s.mem := rfl
@[simp] theorem State.skipIf_pix (s : State) (c) : (s.skipIf c).pix = s.pix := rfl
@[simp] theorem State.skipIf_i (s : State) (c) : (s.skipIf c).i = s.i := rfl
@[simp] theorem State.skipIf_stack (s : State) (c) : (s.skipIf c).stack = s.stack := rfl
@[simp] theorem State.skipIf_key (s : State) (c) : (s.skipIf c).key = s.key := rfl
@[simp] theorem State.skipIf_dt (s : State) (c) : (s.skipIf c).dt = s.dt := rfl
@[simp] theorem State.skipIf_st (s : State) (c) : (s.skipIf c).st = s.st := rfl
@[simp] theorem State.skipIf_halt (s : State) (c) : (s.skipIf c).halt = s.halt := rfl
@[simp] theorem State.skipIf_host (s : State) (c) : (s.skipIf c).host = s.host := rfl
@[simp] theorem State.skipIf_rand (s : State) (c) : (s.skipIf c).rand = s.rand := rfl
@[simp] theorem State.skipIf_draws (s : State) (c) : (s.skipIf c).draws = s.draws := rfl

/-! ## The register block of Fx55 and Fx65 -/

theorem State.setRegsFrom_eq (s : State) (k : Nat) (bs : List Byte) :
    s.setRegsFrom k bs = { s with v := (s.setRegsFrom k bs).v } := by
  induction bs generalizing s k with
  | nil => rfl
  | cons b bs ih => rw [State.setRegsFrom, ih]; rfl

@[simp] theorem State.regsUpTo_length (s : State) (x : RegId) : (s.regsUpTo x).length = x.toNat + 1 := by
  simp [State.regsUpTo]

@[simp] theorem State.getElem_regsUpTo (s : State) (x : RegId) (k : Nat) (h : k < (s.regsUpTo x).length) :
    (s.regsUpTo x)[k] = s.reg (BitVec.ofNat 4 k) := by
  simp [State.regsUpTo]

/-- Everything `setRegsFrom` does to the registers: the registers from `k` on get the bytes in order, the
others keep their values. -/
theorem State.reg_setRegsFrom (s : State) (k : Nat) (bs : List Byte) (hk : k + bs.length ≤ 16) (r : RegId) :
    (s.setRegsFrom k bs).reg r =
      if h : k ≤ r.toNat ∧ r.toNat < k + bs.length then bs[r.toNat - k]'(by omega) else s.reg r := by
  induction bs generalizing s k with
  | nil => rw [dif_neg (by simp)]; rfl
  | cons b bs ih =>
    simp only [List.length_cons] at hk
    rw [State.setRegsFrom, ih _ (k + 1) (by omega)]
    have hkk : (BitVec.ofNat 4 k).toNat = k := by simp; omega
    by_cases h1 : r.toNat = k
    · have hr : r = BitVec.ofNat 4 k := BitVec.eq_of_toNat_eq (by omega)
      rw [dif_neg (by omega), dif_pos (by simp; omega)]
      simp only [h1, Nat.sub_self, List.getElem_cons_zero]
      rw [hr, State.reg_setReg_same]
    · have hr : r ≠ BitVec.ofNat 4 k := fun e => h1 (by rw [e, hkk])
      by_cases h2 : k + 1 ≤ r.toNat ∧ r.toNat < k + 1 + bs.length
      · rw [dif_pos h2, dif_pos (by simp; omega), List.getElem_cons, dif_neg (by omega)]
        congr 1
      · rw [dif_neg h2, dif_neg (by simp; omega), State.reg_setReg_other s b hr]

/-! ## The host's updates -/

@[simp] theorem resetMachine_host (s : State) : (resetMachine s).host = s.host := rfl
@[simp] theorem resetMachine_draws (s : State) : (resetMachine s).draws = s.draws := rfl

/-- What taking an event out of the schedule leaves alone: every field the spec gives the machine. -/
theorem takeEvent_eq (s : State) :
    takeEvent s = { s with host := (takeEvent s).host, draws := (takeEvent s).draws } := by
  unfold takeEvent
  split <;> rfl

theorem unlessHalted_of_running {s : State} (h : s.halt = none) (f : State → State) :
    unlessHalted s f = f s := by
  simp [unlessHalted, h]

theorem unlessHalted_of_halted {s : State} (h : s.halt ≠ none) (f : State → State) :
    unlessHalted s f = s := by
  cases hh : s.halt <;> simp_all [unlessHalted]

/-- A call always finds room: this hardware sets no `STACK_LIMIT` (D15). -/
@[simp] theorem stackHasRoom_eq (depth : Nat) : stackHasRoom depth = true := rfl

end Sys2Proof.Machine
end

