-- ==== Sys2Proof/Laws/Exec.lean ====
section
/-! SUPPORT. What the shared operations of the meanings answer: faults, checked accesses, fetch, the key
test, and the step by the host's next event. -/

namespace Sys2Proof.Machine

/-- Taking a fault is a next state: the same state with the record in the halt latch (R236). -/
theorem raise_eq (kind : FaultKind) (opcode : Option Word) (info : FaultInfo) (s : State) :
    raise kind opcode info s = .next (haltedBy kind opcode info s) := rfl

@[simp] theorem haltedBy_halt (kind opcode info) (s : State) :
    (haltedBy kind opcode info s).halt = some ⟨kind, s.pc, opcode, info⟩ := rfl
@[simp] theorem haltedBy_pc (kind opcode info) (s : State) : (haltedBy kind opcode info s).pc = s.pc := rfl
@[simp] theorem haltedBy_reg (kind opcode info) (s : State) (r) :
    (haltedBy kind opcode info s).reg r = s.reg r := rfl
@[simp] theorem haltedBy_mem (kind opcode info) (s : State) : (haltedBy kind opcode info s).mem = s.mem := rfl
@[simp] theorem haltedBy_stack (kind opcode info) (s : State) :
    (haltedBy kind opcode info s).stack = s.stack := rfl

@[simp] theorem orRaise_ok {α : Type} (instr : Instr) (s : State) (a : α) (k : α → Result) :
    orRaise instr s (.ok a) k = k a := rfl

@[simp] theorem orRaise_error {α : Type} (instr : Instr) (s : State) (addr : Nat) (k : α → Result) :
    orRaise instr s (.error addr) k =
      .next (haltedBy .addressOutOfRange (some (encode instr)) (.address addr) s) := rfl

/-- Everything a checked access can come to. -/
theorem orRaise_next {α : Type} {instr : Instr} {s t : State} {r : Except Nat α} {k : α → Result}
    (h : orRaise instr s r k = .next t) :
    (∃ a, r = .ok a ∧ k a = .next t) ∨
    (∃ addr, r = .error addr ∧
      t = haltedBy .addressOutOfRange (some (encode instr)) (.address addr) s) := by
  cases r with
  | ok a => exact .inl ⟨a, rfl, h⟩
  | error addr => exact .inr ⟨addr, rfl, by simpa using h.symm⟩

/-- An error of a block load is an address above 0xFFF. -/
theorem Memory.loadBlock_error_above {m : Memory} {a n addr : Nat} (h : m.loadBlock a n = .error addr) :
    Config.addrMax < addr := by
  by_cases hn : n = 0
  · subst hn; simp [Memory.loadBlock] at h
  · by_cases ha : a + n ≤ Config.addrMax + 1
    · rw [Memory.loadBlock_ok m a n ha] at h; simp at h
    · rw [Memory.loadBlock_error m a n hn (by omega)] at h
      simp only [Except.error.injEq] at h
      omega

/-- An error of a block store is an address above 0xFFF. -/
theorem Memory.storeBlock_error_above {m : Memory} {a addr : Nat} {bs : List Byte}
    (h : m.storeBlock a bs = .error addr) : Config.addrMax < addr := by
  by_cases hn : bs = []
  · subst hn; simp [Memory.storeBlock] at h
  · by_cases ha : a + bs.length ≤ Config.addrMax + 1
    · rw [Memory.storeBlock_ok m a bs ha] at h; simp at h
    · rw [Memory.storeBlock_error m a bs hn (by omega)] at h
      simp only [Except.error.injEq] at h
      omega

/-- A block store that goes through writes inside the address space. -/
theorem Memory.storeBlock_next {m m' : Memory} {a : Nat} {bs : List Byte} (h : m.storeBlock a bs = .ok m') :
    m' = m.writeBlock a bs ∧ (bs = [] ∨ a + bs.length ≤ Config.addrMax + 1) := by
  by_cases hn : bs = []
  · subst hn; simp [Memory.storeBlock] at h; exact ⟨h.symm, .inl rfl⟩
  · by_cases ha : a + bs.length ≤ Config.addrMax + 1
    · rw [Memory.storeBlock_ok m a bs ha] at h
      exact ⟨(Except.ok.inj h).symm, .inr ha⟩
    · rw [Memory.storeBlock_error m a bs hn (by omega)] at h; simp at h

/-- A fetch with both bytes inside memory (R62, R91). -/
theorem fetch_ok {s : State} (h : s.pc.toNat + 1 ≤ Config.addrMax) :
    fetch s = .ok (joinBytes (s.mem.read s.pc.toNat) (s.mem.read (s.pc.toNat + 1))) := by
  simp [fetch, Memory.load_ok s.mem (show s.pc.toNat ≤ Config.addrMax by omega), Memory.load_ok s.mem h]

/-- A fetch that leaves memory answers the first address that does not exist (R91, R235). -/
theorem fetch_error {s : State} (h : Config.addrMax < s.pc.toNat + 1) :
    fetch s = .error (max s.pc.toNat (Config.addrMax + 1)) := by
  by_cases h1 : s.pc.toNat ≤ Config.addrMax
  · simp only [fetch, Memory.load_ok s.mem h1, Memory.load_error s.mem h]
    congr 1
    omega
  · simp only [fetch, Memory.load_error s.mem (show Config.addrMax < s.pc.toNat by omega)]
    congr 1
    omega

/-- A fetch that gives an opcode had both bytes inside memory. -/
theorem fetch_next {s : State} {op : Word} (h : fetch s = .ok op) : s.pc.toNat + 1 ≤ Config.addrMax := by
  by_contra hn
  rw [fetch_error (by omega)] at h
  simp at h

/-- The key test on a key number that names a flag (R210, R211). -/
theorem withKey_ok {instr : Instr} {x : RegId} {s : State} (h : (s.reg x).toNat ≤ 15) (k : Bool → Result) :
    withKey instr x s k = k (s.keyDown (s.reg x).toNat) := by
  simp [withKey, Nat.not_lt.2 h]

/-- The key test on a key number above 15 (R234). -/
theorem withKey_error {instr : Instr} {x : RegId} {s : State} (h : 15 < (s.reg x).toNat)
    (k : Bool → Result) : withKey instr x s k =
      .next (haltedBy .keyIndexOutOfRange (some (encode instr)) (.index (s.reg x)) s) := by
  simp [withKey, h, raise_eq]

/-- A step with an empty schedule runs one instruction with a free random byte (log entries 1, 2). -/
theorem step_of_empty {s : State} (h : s.host = []) :
    step s = stepEvent (Config.randomByte s.draws) { s with draws := s.draws + 1 } := by
  simp [step, nextEvent, takeEvent, h, deliver]

/-- A step with a scheduled event delivers it (log entry 1). -/
theorem step_of_event {s : State} {e : HostEvent} {rest : List HostEvent} (h : s.host = e :: rest) :
    step s = deliver e { s with host := rest } := by
  simp [step, nextEvent, takeEvent, h]

theorem stepEvent_of_running {s : State} (h : s.halt = none) (rand : Byte) :
    stepEvent rand s = runInstr { s with rand := rand } := by
  simp [stepEvent, h]

theorem stepEvent_of_halted {s : State} (h : s.halt ≠ none) (rand : Byte) : stepEvent rand s = .next s := by
  cases hh : s.halt <;> simp_all [stepEvent]

/-- Everything one instruction's step can come to: a fetch fault, a decode fault, or the instruction
(R235, R249). -/
theorem runInstr_cases (s : State) :
    (∃ a, fetch s = .error a ∧ runInstr s = .next (haltedBy .addressOutOfRange none (.address a) s)) ∨
    (∃ op why, fetch s = .ok op ∧ decode op = .error why ∧
      runInstr s = .next (haltedBy .invalidOpcode (some op) .none s)) ∨
    (∃ op i, fetch s = .ok op ∧ decode op = .ok i ∧ runInstr s = exec i s) := by
  unfold runInstr
  cases hf : fetch s with
  | error a => exact .inl ⟨a, rfl, rfl⟩
  | ok op =>
    cases hd : decode op with
    | error why => exact .inr (.inl ⟨op, why, rfl, hd, by simp [hd, raise_eq]⟩)
    | ok i => exact .inr (.inr ⟨op, i, rfl, hd, by simp [hd]⟩)

/-- An instruction either leaves the halt latch alone or takes a fault that names it and keeps the rest
(R236). -/
theorem exec_next_halt {i : Instr} {s t : State} (h : exec i s = .next t) :
    t.halt = s.halt ∨ ∃ kind info, t = haltedBy kind (some (encode i)) info s := by
  cases i
  case ret =>
    simp only [exec, execRet] at h
    split at h <;> cases h
    · exact .inr ⟨_, _, rfl⟩
    · exact .inl rfl
  case ldVxK => simp only [exec, execLdVxK] at h; split at h <;> cases h <;> exact .inl rfl
  case skp | sknp =>
    simp only [exec, execSkp, execSknp, withKey] at h
    split at h <;> cases h
    · exact .inr ⟨_, _, rfl⟩
    · exact .inl rfl
  case drw | ldB | storeRegs =>
    rcases orRaise_next h with ⟨_, _, h⟩ | ⟨_, _, h⟩
    · cases h; exact .inl rfl
    · exact .inr ⟨_, _, h⟩
  case loadRegs =>
    rcases orRaise_next h with ⟨_, _, h⟩ | ⟨_, _, h⟩
    · cases h; left; rw [State.setRegsFrom_eq]; rfl
    · exact .inr ⟨_, _, h⟩
  all_goals (cases h; exact .inl rfl)

end Sys2Proof.Machine
end

