-- ==== Sys2Proof/Laws/PerInstr.lean ====
section
/-! SUPPORT. Statements made instruction by instruction. `SourceForm`: the way an instruction is written
(R95's mnemonic column) is well formed and stands for that very instruction (R100). -/

namespace Sys2Proof

@[simp] theorem regField_toNat (x : RegId) : regField x.toNat = some x := by
  have := x.isLt
  simp [regField, show x.toNat ≤ 15 by omega]

@[simp] theorem nibbleField_toNat (n : Nibble) : nibbleField n.toNat = some n := by
  have := n.isLt
  simp [nibbleField, show n.toNat ≤ 15 by omega]

@[simp] theorem byteField_toNat (n : Byte) : byteField n.toNat = some n := by
  have := n.isLt
  simp [byteField, show n.toNat ≤ 255 by omega]

@[simp] theorem addrField_toNat (n : Addr) : addrField n.toNat = some n := by
  have := n.isLt
  simp [addrField, show n.toNat ≤ 0xFFF by omega]

end Sys2Proof

namespace Sys2Proof.Laws.SourceForm

/-- The written form is well formed and stands for the instruction. -/
def Statement (i : Instr) : Prop := i.toSource.wellFormed = true ∧ i.toSource.toInstr = some i

theorem cls : Statement .cls := by
  simp [Statement, Instr.toSource, SourceInstr.wellFormed, SourceInstr.toInstr]

theorem ret : Statement .ret := by
  simp [Statement, Instr.toSource, SourceInstr.wellFormed, SourceInstr.toInstr]

theorem jp (nnn : Addr) : Statement (.jp nnn) := by
  simp [Statement, Instr.toSource, SourceInstr.wellFormed, SourceInstr.toInstr, withA]

theorem call (nnn : Addr) : Statement (.call nnn) := by
  simp [Statement, Instr.toSource, SourceInstr.wellFormed, SourceInstr.toInstr, withA]

theorem seImm (x : RegId) (nn : Byte) : Statement (.seImm x nn) := by
  simp [Statement, Instr.toSource, SourceInstr.wellFormed, SourceInstr.toInstr, withXI]

theorem sneImm (x : RegId) (nn : Byte) : Statement (.sneImm x nn) := by
  simp [Statement, Instr.toSource, SourceInstr.wellFormed, SourceInstr.toInstr, withXI]

theorem seReg (x y : RegId) : Statement (.seReg x y) := by
  simp [Statement, Instr.toSource, SourceInstr.wellFormed, SourceInstr.toInstr, withXY]

theorem ldImm (x : RegId) (nn : Byte) : Statement (.ldImm x nn) := by
  simp [Statement, Instr.toSource, SourceInstr.wellFormed, SourceInstr.toInstr, withXI]

theorem addImm (x : RegId) (nn : Byte) : Statement (.addImm x nn) := by
  simp [Statement, Instr.toSource, SourceInstr.wellFormed, SourceInstr.toInstr, withXI]

theorem ldReg (x y : RegId) : Statement (.ldReg x y) := by
  simp [Statement, Instr.toSource, SourceInstr.wellFormed, SourceInstr.toInstr, withXY]

theorem orReg (x y : RegId) : Statement (.orReg x y) := by
  simp [Statement, Instr.toSource, SourceInstr.wellFormed, SourceInstr.toInstr, withXY]

theorem andReg (x y : RegId) : Statement (.andReg x y) := by
  simp [Statement, Instr.toSource, SourceInstr.wellFormed, SourceInstr.toInstr, withXY]

theorem xorReg (x y : RegId) : Statement (.xorReg x y) := by
  simp [Statement, Instr.toSource, SourceInstr.wellFormed, SourceInstr.toInstr, withXY]

theorem addReg (x y : RegId) : Statement (.addReg x y) := by
  simp [Statement, Instr.toSource, SourceInstr.wellFormed, SourceInstr.toInstr, withXY]

theorem subReg (x y : RegId) : Statement (.subReg x y) := by
  simp [Statement, Instr.toSource, SourceInstr.wellFormed, SourceInstr.toInstr, withXY]

theorem shr (x y : RegId) : Statement (.shr x y) := by
  simp [Statement, Instr.toSource, SourceInstr.wellFormed, SourceInstr.toInstr, withXY]

theorem subnReg (x y : RegId) : Statement (.subnReg x y) := by
  simp [Statement, Instr.toSource, SourceInstr.wellFormed, SourceInstr.toInstr, withXY]

theorem shl (x y : RegId) : Statement (.shl x y) := by
  simp [Statement, Instr.toSource, SourceInstr.wellFormed, SourceInstr.toInstr, withXY]

theorem sneReg (x y : RegId) : Statement (.sneReg x y) := by
  simp [Statement, Instr.toSource, SourceInstr.wellFormed, SourceInstr.toInstr, withXY]

theorem ldI (nnn : Addr) : Statement (.ldI nnn) := by
  simp [Statement, Instr.toSource, SourceInstr.wellFormed, SourceInstr.toInstr, withA]

theorem jpV0 (nnn : Addr) : Statement (.jpV0 nnn) := by
  simp [Statement, Instr.toSource, SourceInstr.wellFormed, SourceInstr.toInstr, withA]

theorem rnd (x : RegId) (nn : Byte) : Statement (.rnd x nn) := by
  simp [Statement, Instr.toSource, SourceInstr.wellFormed, SourceInstr.toInstr, withXI]

theorem drw (x y : RegId) (n : Nibble) : Statement (.drw x y n) := by
  simp [Statement, Instr.toSource, SourceInstr.wellFormed, SourceInstr.toInstr, withXYN]

theorem skp (x : RegId) : Statement (.skp x) := by
  simp [Statement, Instr.toSource, SourceInstr.wellFormed, SourceInstr.toInstr, withX]

theorem sknp (x : RegId) : Statement (.sknp x) := by
  simp [Statement, Instr.toSource, SourceInstr.wellFormed, SourceInstr.toInstr, withX]

theorem ldVxDt (x : RegId) : Statement (.ldVxDt x) := by
  simp [Statement, Instr.toSource, SourceInstr.wellFormed, SourceInstr.toInstr, withX]

theorem ldVxK (x : RegId) : Statement (.ldVxK x) := by
  simp [Statement, Instr.toSource, SourceInstr.wellFormed, SourceInstr.toInstr, withX]

theorem ldDtVx (x : RegId) : Statement (.ldDtVx x) := by
  simp [Statement, Instr.toSource, SourceInstr.wellFormed, SourceInstr.toInstr, withX]

theorem ldStVx (x : RegId) : Statement (.ldStVx x) := by
  simp [Statement, Instr.toSource, SourceInstr.wellFormed, SourceInstr.toInstr, withX]

theorem addI (x : RegId) : Statement (.addI x) := by
  simp [Statement, Instr.toSource, SourceInstr.wellFormed, SourceInstr.toInstr, withX]

theorem ldF (x : RegId) : Statement (.ldF x) := by
  simp [Statement, Instr.toSource, SourceInstr.wellFormed, SourceInstr.toInstr, withX]

theorem ldB (x : RegId) : Statement (.ldB x) := by
  simp [Statement, Instr.toSource, SourceInstr.wellFormed, SourceInstr.toInstr, withX]

theorem storeRegs (x : RegId) : Statement (.storeRegs x) := by
  simp [Statement, Instr.toSource, SourceInstr.wellFormed, SourceInstr.toInstr, withX]

theorem loadRegs (x : RegId) : Statement (.loadRegs x) := by
  simp [Statement, Instr.toSource, SourceInstr.wellFormed, SourceInstr.toInstr, withX]

end Sys2Proof.Laws.SourceForm
end

