-- ==== Sys2Proof/Tests/Slice0.lean ====
section
/-! SUPPORT. Tests and witnesses. The expected results are the spec's own: its source examples S1 to S11
and vectors T-... (95_test_vectors.md), the patterns of R95 and the assembly examples; each test names
its vector. The witnesses show that the hypotheses of the statements can be met. -/

namespace Sys2Proof.Tests

open Sys2Proof Sys2Proof.Machine

/-! ## Well-formedness (R93, R100): each check refuses an ill-formed line -/

theorem test_wf_accepts : (SourceInstr.mk .DRW [.reg 15, .reg 15, .num 15]).wellFormed = true := by decide
theorem test_wf_register_too_large : (SourceInstr.mk .SKP [.reg 16]).wellFormed = false := by decide
theorem test_wf_second_register_too_large :
    (SourceInstr.mk .OR [.reg 0, .reg 16]).wellFormed = false := by decide
theorem test_wf_nibble_too_large :
    (SourceInstr.mk .DRW [.reg 1, .reg 2, .num 16]).wellFormed = false := by decide
theorem test_wf_byte_too_large : (SourceInstr.mk .ADD [.reg 1, .num 256]).wellFormed = false := by decide
theorem test_wf_address_too_large : (SourceInstr.mk .JP [.num 0x1000]).wellFormed = false := by decide
theorem test_wf_jump_register_not_v0 :
    (SourceInstr.mk .JP [.reg 1, .num 0x200]).wellFormed = false := by decide
theorem test_wf_operand_missing : (SourceInstr.mk .CALL []).wellFormed = false := by decide
theorem test_wf_operand_too_many : (SourceInstr.mk .CLS [.reg 0]).wellFormed = false := by decide
theorem test_wf_wrong_operand_kind :
    (SourceInstr.mk .LD [.word .K, .reg 1]).wellFormed = false := by decide
theorem test_wf_label_not_replaced :
    (SourceInstr.mk .JP [.label "loop"]).wellFormed = false := by decide
/-- R100: `SHR Vx` stands for `y = 0`. -/
theorem test_wf_shift_short_form : (SourceInstr.mk .SHR [.reg 3]).toInstr = some (.shr 3 0) := by decide

/-! ## Decoding: a word from the pattern of R95 for every row, fields all different -/

theorem test_decode_flow :
    decode 0x00EE = .ok .ret ∧ decode 0x1ABC = .ok (.jp 0xABC) ∧ decode 0x2ABC = .ok (.call 0xABC) ∧
    decode 0xBABC = .ok (.jpV0 0xABC) ∧ decode 0x3A42 = .ok (.seImm 0xA 0x42) ∧
    decode 0x4A42 = .ok (.sneImm 0xA 0x42) ∧ decode 0x5120 = .ok (.seReg 1 2) ∧
    decode 0x9120 = .ok (.sneReg 1 2) := by decide

theorem test_decode_load_alu :
    decode 0x6A2B = .ok (.ldImm 0xA 0x2B) ∧ decode 0x7305 = .ok (.addImm 3 5) ∧
    decode 0x8120 = .ok (.ldReg 1 2) ∧ decode 0x8121 = .ok (.orReg 1 2) ∧
    decode 0x8122 = .ok (.andReg 1 2) ∧ decode 0x8123 = .ok (.xorReg 1 2) ∧
    decode 0x8124 = .ok (.addReg 1 2) ∧ decode 0x8125 = .ok (.subReg 1 2) ∧
    decode 0x8126 = .ok (.shr 1 2) ∧ decode 0x8127 = .ok (.subnReg 1 2) ∧
    decode 0x812E = .ok (.shl 1 2) ∧ decode 0xC30F = .ok (.rnd 3 0x0F) := by decide

theorem test_decode_index_memory_display :
    decode 0xA2F0 = .ok (.ldI 0x2F0) ∧ decode 0xF21E = .ok (.addI 2) ∧ decode 0xF329 = .ok (.ldF 3) ∧
    decode 0xF433 = .ok (.ldB 4) ∧ decode 0xF355 = .ok (.storeRegs 3) ∧
    decode 0xF265 = .ok (.loadRegs 2) ∧ decode 0x00E0 = .ok .cls ∧
    decode 0xD125 = .ok (.drw 1 2 5) := by decide

theorem test_decode_keypad_timers :
    decode 0xE19E = .ok (.skp 1) ∧ decode 0xE1A1 = .ok (.sknp 1) ∧ decode 0xF20A = .ok (.ldVxK 2) ∧
    decode 0xF307 = .ok (.ldVxDt 3) ∧ decode 0xF315 = .ok (.ldDtVx 3) ∧
    decode 0xF318 = .ok (.ldStVx 3) := by decide

/-- R97, one word of each row of its table and the neighbours T-FLT-6 to T-FLT-11. -/
theorem test_decode_illegal :
    decode 0x0000 = .error .family0 ∧ decode 0x00E1 = .error .family0 ∧ decode 0x01E0 = .error .family0 ∧
    decode 0x5121 = .error .family5 ∧ decode 0x8128 = .error .family8 ∧ decode 0x812F = .error .family8 ∧
    decode 0x9127 = .error .family9 ∧ decode 0xE000 = .error .familyE ∧ decode 0xE19F = .error .familyE ∧
    decode 0xF316 = .error .familyF ∧ decode 0xF075 = .error .familyF ∧
    decode 0xFFFF = .error .familyF := by decide

/-- R102's example, bytes `D1 25`; and the opcode table's numbering of a 16-bit word. -/
theorem test_encode_example :
    encodeBytes (.drw 1 2 5) = [0xD1, 0x25] ∧ decodeTableWord 16 0xD125 = some (.drw 1 2 5) ∧
    decodeTableWord 16 0x8128 = none ∧ decodeBytes [0xD1] = .error .truncated := by decide

/-- R95, R97: 34 rows, and the masks leave 43954 opcodes valid (2.6, decode counts). -/
theorem test_opcode_table_counts :
    opcodeTable.length = 34 ∧
    (opcodeTable.map fun r => if r.format = .Z then 1 else if r.format = .XY ∨ r.format = .XF then
      (if r.format = .XY then 256 else 16) else 4096).sum = 43954 := by decide

/-- R95: the rows are pairwise disjoint. -/
theorem test_opcode_table_disjoint :
    opcodeTable.Pairwise fun a b => a.value &&& b.mask &&& a.mask ≠ b.value &&& a.mask &&& b.mask := by
  decide

/-! ## One step on a small state -/

/-- The reset state with some registers set (the "start" column of the vectors). -/
def start (rs : List (RegId × Byte)) : State := rs.foldl (fun s r => s.setReg r.1 r.2) State.reset

/-- Bytes put into memory. -/
def withBytes (a : Nat) (bs : List Byte) (s : State) : State := { s with mem := s.mem.writeBlock a bs }

/-- Display cells `(column, row)` changed. -/
def withCells (cells : List (Nat × Nat)) (s : State) : State :=
  { s with pix := cells.foldl (fun p c => p.toggle (c.1 + 64 * c.2)) s.pix }

/-- Keys held down. -/
def withKeys (ks : List Nat) (s : State) : State := ks.foldl (fun s k => setKey k true s) s

/-- The opcode stored big-endian at an address. -/
def withOpcode (pc op : Word) (s : State) : State := withBytes pc.toNat [highByte op, lowByte op] s

/-- The state after one `Step(rand)` on an opcode at PC. -/
def after (rand : Byte) (op : Word) (s : State) : Option State :=
  match stepEvent rand (withOpcode s.pc op s) with
  | .next t => some t
  | _ => none

/-- The step with `rand = 0` ends in the given state, ALL of it: a field the vector does not list is
unchanged. -/
def goesTo (op : Word) (s t : State) : Prop := after 0 op s = some (withOpcode s.pc op t)

/-- A fault of the vectors: `HALT` set, every other field as at the start. -/
def haltsWith (op : Word) (s : State) (kind : FaultKind) (opcode : Option Word) (info : FaultInfo) : Prop :=
  goesTo op s { s with halt := some ⟨kind, s.pc, opcode, info⟩ }

/-! ### Control flow (T-FLOW) -/

theorem test_ret_T_FLOW_2 :
    goesTo 0x00EE { State.reset with stack := [0xABC, 0x202] }
      { State.reset with stack := [0xABC], pc := 0x202 } := by unfold goesTo; decide
theorem test_ret_T_FLOW_3 : haltsWith 0x00EE State.reset .stackUnderflow (some 0x00EE) .none := by
  unfold haltsWith goesTo; decide
theorem test_jp_T_FLOW_6 : goesTo 0x1301 State.reset { State.reset with pc := 0x301 } := by
  unfold goesTo; decide
theorem test_call_T_FLOW_8 :
    goesTo 0x2400 { State.reset with pc := 0xFFE, stack := [0x202] }
      { State.reset with pc := 0x400, stack := [0x202, 0x1000] } := by unfold goesTo; decide
theorem test_jpV0_T_FLOW_10 :
    goesTo 0xBFFF (start [(0, 0xFF)]) { start [(0, 0xFF)] with pc := 0x10FE } := by unfold goesTo; decide
theorem test_seImm_T_FLOW_11_12 :
    goesTo 0x3A42 (start [(0xA, 0x42)]) { start [(0xA, 0x42)] with pc := 0x204 } ∧
    goesTo 0x3A42 (start [(0xA, 0x41)]) { start [(0xA, 0x41)] with pc := 0x202 } := by
  unfold goesTo; decide
theorem test_sneImm_T_FLOW_13_14 :
    goesTo 0x4A42 (start [(0xA, 0x41)]) { start [(0xA, 0x41)] with pc := 0x204 } ∧
    goesTo 0x4A42 (start [(0xA, 0x42)]) { start [(0xA, 0x42)] with pc := 0x202 } := by
  unfold goesTo; decide
theorem test_seReg_T_FLOW_15_16 :
    goesTo 0x5120 (start [(1, 7), (2, 7)]) { start [(1, 7), (2, 7)] with pc := 0x204 } ∧
    goesTo 0x5120 (start [(1, 7), (2, 8)]) { start [(1, 7), (2, 8)] with pc := 0x202 } := by
  unfold goesTo; decide
theorem test_sneReg_T_FLOW_18_19 :
    goesTo 0x9120 (start [(1, 7), (2, 8)]) { start [(1, 7), (2, 8)] with pc := 0x204 } ∧
    goesTo 0x9120 (start [(1, 7), (2, 7)]) { start [(1, 7), (2, 7)] with pc := 0x202 } := by
  unfold goesTo; decide

/-! ### Load and arithmetic (T-ALU) -/

/-- From some registers to others, with PC going on. -/
def goesToRegs (op : Word) (before afterwards : List (RegId × Byte)) : Prop :=
  goesTo op (start before) { start afterwards with pc := 0x202 }

theorem test_ldImm_T_ALU_2 : goesToRegs 0x6F77 [] [(0xF, 0x77)] := by unfold goesToRegs goesTo; decide
theorem test_addImm_T_ALU_3 : goesToRegs 0x7305 [(3, 0xFE), (0xF, 0x55)] [(3, 3), (0xF, 0x55)] := by
  unfold goesToRegs goesTo; decide
theorem test_ldReg_T_ALU_5 : goesToRegs 0x8120 [(2, 0x99)] [(1, 0x99), (2, 0x99)] := by
  unfold goesToRegs goesTo; decide
theorem test_orReg_T_ALU_6 :
    goesToRegs 0x8121 [(1, 0xF0), (2, 0x0F), (0xF, 0x55)] [(1, 0xFF), (2, 0x0F), (0xF, 0x55)] := by
  unfold goesToRegs goesTo; decide
theorem test_andReg_T_ALU_7 :
    goesToRegs 0x8122 [(1, 0xF3), (2, 0x3C), (0xF, 0x55)] [(1, 0x30), (2, 0x3C), (0xF, 0x55)] := by
  unfold goesToRegs goesTo; decide
theorem test_xorReg_T_ALU_8 :
    goesToRegs 0x8123 [(1, 0xFF), (2, 0x0F), (0xF, 0x55)] [(1, 0xF0), (2, 0x0F), (0xF, 0x55)] := by
  unfold goesToRegs goesTo; decide
theorem test_addReg_T_ALU_10 :
    goesToRegs 0x8124 [(1, 0xFF), (2, 1), (0xF, 0x55)] [(1, 0), (2, 1), (0xF, 0x55)] := by
  unfold goesToRegs goesTo; decide
theorem test_addReg_T_ALU_13 : goesToRegs 0x8F24 [(0xF, 3), (2, 4)] [(0xF, 7), (2, 4)] := by
  unfold goesToRegs goesTo; decide
/-- T-ALU-16, 17, 18: the vectors that tell the readings of conflict C1 apart. -/
theorem test_subReg_T_ALU_16_17_18 :
    goesToRegs 0x8125 [(1, 7), (2, 7), (0xF, 1)] [(1, 0), (2, 7), (0xF, 0)] ∧
    goesToRegs 0x8125 [(1, 0xFF), (2, 1)] [(1, 0xFE), (2, 1), (0xF, 1)] ∧
    goesToRegs 0x8125 [(1, 1), (2, 0xFF), (0xF, 1)] [(1, 2), (2, 0xFF), (0xF, 0)] := by
  unfold goesToRegs goesTo; decide
/-- T-ALU-20, 21: x = F, and y = F. -/
theorem test_subReg_T_ALU_20_21 :
    goesToRegs 0x8F25 [(0xF, 9), (2, 4)] [(0xF, 1), (2, 4)] ∧
    goesToRegs 0x81F5 [(1, 9), (0xF, 4)] [(1, 5), (0xF, 1)] := by unfold goesToRegs goesTo; decide
theorem test_shr_T_ALU_23_25 :
    goesToRegs 0x8126 [(1, 4), (2, 0xFF), (0xF, 1)] [(1, 2), (2, 0xFF), (0xF, 0)] ∧
    goesToRegs 0x8F06 [(0xF, 3)] [(0xF, 1)] := by unfold goesToRegs goesTo; decide
theorem test_subnReg_T_ALU_26_28 :
    goesToRegs 0x8127 [(1, 5), (2, 3)] [(1, 0xFE), (2, 3), (0xF, 1)] ∧
    goesToRegs 0x8127 [(1, 7), (2, 7), (0xF, 1)] [(1, 0), (2, 7), (0xF, 0)] := by
  unfold goesToRegs goesTo; decide
theorem test_subnReg_T_ALU_29_30 :
    goesToRegs 0x8127 [(1, 0xFF), (2, 1)] [(1, 2), (2, 1), (0xF, 1)] ∧
    goesToRegs 0x8127 [(1, 1), (2, 0xFF), (0xF, 1)] [(1, 0xFE), (2, 0xFF), (0xF, 0)] := by
  unfold goesToRegs goesTo; decide
theorem test_shl_T_ALU_31_33 :
    goesToRegs 0x812E [(1, 0x81)] [(1, 2), (0xF, 1)] ∧ goesToRegs 0x8F0E [(0xF, 0x81)] [(0xF, 1)] := by
  unfold goesToRegs goesTo; decide
theorem test_rnd_T_ALU_34_35 :
    (after 0xA7 0xC30F State.reset).map (fun t => (t.reg 3, t.pc)) = some (0x07, 0x202) ∧
    (after 0xA7 0xC300 (start [(3, 0x11)])).map (fun t => (t.reg 3, t.pc)) = some (0, 0x202) := by decide

/-! ### Index register and memory (T-IDX) -/

theorem test_ldI_T_IDX_1 : goesTo 0xA2F0 State.reset { State.reset with i := 0x2F0, pc := 0x202 } := by
  unfold goesTo; decide
theorem test_addI_T_IDX_3_4 :
    goesTo 0xF21E { start [(2, 1), (0xF, 0x55)] with i := 0xFFF }
      { start [(2, 1), (0xF, 0x55)] with i := 0x1000, pc := 0x202 } ∧
    goesTo 0xF21E { start [(2, 1)] with i := 0xFFFF } { start [(2, 1)] with i := 0, pc := 0x202 } := by
  unfold goesTo; decide
theorem test_ldF_T_IDX_5_8 :
    goesTo 0xF329 (start [(3, 0x0A)]) { start [(3, 0x0A)] with i := 0x32, pc := 0x202 } ∧
    goesTo 0xF329 (start [(3, 0xFF)]) { start [(3, 0xFF)] with i := 0x4FB, pc := 0x202 } := by
  unfold goesTo; decide
/-- T-IDX-9 (S7) and T-IDX-11, the greatest legal `I`. -/
theorem test_ldB_T_IDX_9_11 :
    goesTo 0xF433 { start [(4, 123)] with i := 0x300 }
      (withBytes 0x300 [1, 2, 3] { start [(4, 123)] with i := 0x300, pc := 0x202 }) ∧
    goesTo 0xF433 { start [(4, 0xFF)] with i := 0xFFD }
      (withBytes 0xFFD [2, 5, 5] { start [(4, 0xFF)] with i := 0xFFD, pc := 0x202 }) := by
  unfold goesTo; decide
theorem test_ldB_T_IDX_12 :
    haltsWith 0xF433 { start [(4, 0xFF)] with i := 0xFFE } .addressOutOfRange (some 0xF433)
      (.address 0x1000) := by unfold haltsWith goesTo; decide
/-- T-IDX-14 (S8). -/
theorem test_storeRegs_T_IDX_14 :
    goesTo 0xF355 { start [(0, 1), (1, 2), (2, 3), (3, 4), (4, 9)] with i := 0x300 }
      (withBytes 0x300 [1, 2, 3, 4]
        { start [(0, 1), (1, 2), (2, 3), (3, 4), (4, 9)] with i := 0x300, pc := 0x202 }) := by
  unfold goesTo; decide
/-- T-IDX-16, 17: the in-range byte is not stored, and the reported address is max(I, 0x1000). -/
theorem test_storeRegs_T_IDX_16_17 :
    haltsWith 0xF155 { start [(0, 0xAB), (1, 0xCD)] with i := 0xFFF } .addressOutOfRange (some 0xF155)
      (.address 0x1000) ∧
    haltsWith 0xF055 { State.reset with i := 0x2000 } .addressOutOfRange (some 0xF055)
      (.address 0x2000) := by unfold haltsWith goesTo; decide
theorem test_loadRegs_T_IDX_19 :
    goesTo 0xF265 (withBytes 0x300 [0xAA, 0xBB, 0xCC] { start [(3, 0x77)] with i := 0x300 })
      (withBytes 0x300 [0xAA, 0xBB, 0xCC]
        { start [(0, 0xAA), (1, 0xBB), (2, 0xCC), (3, 0x77)] with i := 0x300, pc := 0x202 }) := by
  unfold goesTo; decide
/-- T-IDX-22: the font is readable data (FONT, log entry 3). -/
theorem test_loadRegs_T_IDX_22 :
    goesToRegs 0xF465 [] [(0, 0xF0), (1, 0x90), (2, 0x90), (3, 0x90), (4, 0xF0)] := by
  unfold goesToRegs goesTo; decide
/-- T-IDX-23 (R74): the next fetch sees the store. -/
theorem test_fetch_sees_store_T_IDX_23 :
    (after 0 0xF155 { start [(0, 0x12), (1, 2)] with i := 0x202 }).map
      (fun t => (t.pc, (fetch t).toOption)) = some (0x202, some 0x1202) := by decide

/-! ### Display (T-DRW) -/

theorem test_cls_T_DRW_1 :
    goesTo 0x00E0 (withCells [(0, 0), (5, 5)] State.reset) { State.reset with pc := 0x202 } ∧
    clsEvent (.step 0) (withOpcode 0x200 0x00E0 State.reset) = true := by unfold goesTo; decide
/-- T-DRW-5 (S4): columns wrap inside the row. -/
theorem test_drw_T_DRW_5 :
    goesTo 0xD121 (withBytes 0x300 [0xFF] { start [(1, 60), (2, 31)] with i := 0x300 })
      (withBytes 0x300 [0xFF] (withCells
        [(60, 31), (61, 31), (62, 31), (63, 31), (0, 31), (1, 31), (2, 31), (3, 31)]
        { start [(1, 60), (2, 31)] with i := 0x300, pc := 0x202 })) := by unfold goesTo; decide
/-- T-DRW-8: one cell set, one unset, VF = 1. -/
theorem test_drw_T_DRW_8 :
    goesTo 0xD121 (withBytes 0x300 [0xC0] (withCells [(1, 0)] { State.reset with i := 0x300 }))
      (withBytes 0x300 [0xC0] (withCells [(0, 0)] { start [(0xF, 1)] with i := 0x300, pc := 0x202 })) := by
  unfold goesTo; decide

/-! ### Keypad and timers (T-KEY, T-TMR) -/

theorem test_skp_T_KEY_5 :
    goesTo 0xE19E (withKeys [15] (start [(1, 15)])) { withKeys [15] (start [(1, 15)]) with pc := 0x204 } := by
  unfold goesTo; decide
theorem test_skp_T_KEY_6 :
    haltsWith 0xE19E (start [(1, 0x10)]) .keyIndexOutOfRange (some 0xE19E) (.index 0x10) := by
  unfold haltsWith goesTo; decide
theorem test_sknp_T_KEY_3_4 :
    goesTo 0xE1A1 (withKeys [5] (start [(1, 5)])) { withKeys [5] (start [(1, 5)]) with pc := 0x202 } ∧
    goesTo 0xE1A1 (start [(1, 5)]) { start [(1, 5)] with pc := 0x204 } := by unfold goesTo; decide
theorem test_ldVxK_T_KEY_8 : goesTo 0xF20A (start [(2, 0x33)]) (start [(2, 0x33)]) := by
  unfold goesTo; decide
theorem test_ldVxK_T_KEY_10 :
    goesTo 0xF20A (withKeys [2, 7, 12] State.reset)
      { withKeys [2, 7, 12] (start [(2, 12)]) with pc := 0x202 } := by unfold goesTo; decide
theorem test_ldVxDt_T_TMR_1 :
    goesTo 0xF307 { State.reset with dt := 0x2A } { start [(3, 0x2A)] with dt := 0x2A, pc := 0x202 } := by
  unfold goesTo; decide
theorem test_ldDtVx_T_TMR_2 :
    goesTo 0xF315 (start [(3, 0x3C)]) { start [(3, 0x3C)] with dt := 0x3C, pc := 0x202 } := by
  unfold goesTo; decide
theorem test_ldStVx_T_TMR_3 :
    goesTo 0xF318 (start [(3, 0x3C)]) { start [(3, 0x3C)] with st := 0x3C, pc := 0x202 } := by
  unfold goesTo; decide
/-- T-TMR-6 (S11), T-TMR-8. -/
theorem test_tick_T_TMR_6_8 :
    tick { State.reset with dt := 1 } = State.reset ∧ tick State.reset = State.reset ∧
    tick { State.reset with dt := 255, st := 2 } = { State.reset with dt := 254, st := 1 } := by decide

/-! ### Fetch, decode and faults (T-FLT), host events (T-HOST) -/

theorem test_fetch_T_FLT_1_3 :
    (after 0 0x0000 { State.reset with pc := 0xFFF }).map (·.halt) =
      some (some ⟨.addressOutOfRange, 0xFFF, none, .address 0x1000⟩) ∧
    (after 0 0x0000 { State.reset with pc := 0x10FE }).map (·.halt) =
      some (some ⟨.addressOutOfRange, 0x10FE, none, .address 0x10FE⟩) := by decide
theorem test_last_slot_T_FLT_4 :
    goesTo 0x6A2B { State.reset with pc := 0xFFE } { start [(0xA, 0x2B)] with pc := 0x1000 } := by
  unfold goesTo; decide
theorem test_illegal_T_FLT_5_7 :
    haltsWith 0x0000 State.reset .invalidOpcode (some 0x0000) .none ∧
    haltsWith 0x01E0 State.reset .invalidOpcode (some 0x01E0) .none := by unfold haltsWith goesTo; decide
/-- R230: the numeric codes. -/
theorem test_fault_codes :
    [FaultKind.invalidOpcode, .stackUnderflow, .addressOutOfRange, .keyIndexOutOfRange].map
      FaultKind.code = [1, 2, 3, 4] := by decide

/-- A halted state, the end of T-FLT-5. -/
def stopped : State := haltedBy .invalidOpcode (some 0x0000) .none State.reset

/-- T-FLT-12, T-FLT-13. -/
theorem test_halted_T_FLT_12_13 :
    tick { stopped with dt := 5 } = { stopped with dt := 5 } ∧ setKey 3 true stopped = stopped ∧
    loadProgram [0x12, 0x00] stopped = stopped ∧ resetMachine stopped = State.reset := by decide
theorem test_setKey_T_HOST_4_5_6 :
    setKey 9 true (withKeys [3] State.reset) = withKeys [9, 3] State.reset ∧
    setKey 3 false (withKeys [3] State.reset) = State.reset ∧
    setKey 16 true State.reset = State.reset ∧ refuses (.setKey 16 true) State.reset = true := by decide
theorem test_loadProgram_T_HOST_2_3 :
    refuses (.loadProgram (List.replicate 3585 0xAA)) State.reset = true ∧
    loadProgram [] State.reset = State.reset := by
  refine ⟨?_, by decide⟩
  show (false || decide ((List.replicate 3585 (0xAA : Byte)).length > Config.progMaxLen)) = true
  rw [List.length_replicate]
  decide
theorem test_reset_T_HOST_8 :
    resetMachine (withBytes 0x300 [0x55] (withCells [(1, 1)]
      { start [(1, 7)] with stack := [0x202], dt := 9 })) = State.reset := by decide
/-- R247, T-ALU-34: the events of the schedule are taken in order, one a step; the `Step` brings its own
random byte. -/
theorem test_schedule_is_taken_in_order :
    (match Sys2Proof.core.run 4
        { State.reset with host := [.loadProgram [0xC3, 0x0F], .setKey 7 true, .step 0xA7, .tick] } with
      | .next t => some (t.reg 3, t.keyDown 7, t.pc, t.host, t.halt)
      | _ => none) = some (0x07, true, 0x202, [], none) := by decide
/-- `withFetchWord` makes the very next step run the instruction (T-FLOW-4), also in a halted state. -/
theorem test_withFetchWord_runs_next :
    (match step (State.withFetchWord { stopped with pc := 0xFFF, host := [.tick] } 16 0x1ABC) with
      | .next t => some (t.pc, t.halt)
      | _ => none) = some (0xABC, none) := by decide

/-! ### Assembly text (R100, R101) -/

/-- The listing of program P1 and its bytes. -/
theorem test_assemble_P1 :
    assembleText ["LD  V0, 0x00      ; sum", "LD  V1, 0x05", "loop: ADD V0, V1", "ADD V1, 0xFF",
      "SE  V1, 0x00", "JP  loop", "end: JP  end"] =
    some [0x60, 0x00, 0x61, 0x05, 0x80, 0x14, 0x71, 0xFF, 0x31, 0x00, 0x12, 0x04, 0x12, 0x0C] := by decide
/-- DESIGN CHOICE (log entry 24): hexadecimal digits are read in either case. -/
theorem test_assemble_reads_lower_case_digits : assembleText ["LD Va, 0xab"] = some [0x6A, 0xAB] := by decide
/-- DESIGN CHOICE (log entry 24): a label written for `nn` stands for its address where that fits, and is
an error where it does not. -/
theorem test_assemble_label_for_byte :
    assembleText ["ORG 0x20", "a:", "ORG 0x200", "LD V0, a"] = some [0x60, 0x20] ∧
    assembleText ["a: LD V0, a"] = none := by decide
/-- R100: an operand that does not fit is an error, never truncated. -/
theorem test_assemble_refuses_large_operand : assembleText ["LD V0, 256"] = none := by decide
theorem test_assemble_refuses_unknown_label : assembleText ["JP nowhere"] = none := by decide
theorem test_disassemble : disassemble (.drw 1 2 5) = "DRW V1, V2, 0x5" := by decide

/-! ## Witnesses: the hypotheses of the statements are met, at boundary values -/

/-- 00E0 in memory at PC, and a `Step` next. -/
def clsNext : State := withOpcode 0x200 0x00E0 { State.reset with host := [.step 0x5A] }

/-- The state of an answer that goes on. -/
def nextState : Result → Option State
  | .next t => some t
  | _ => none

/-- The idle loop `JP 0x200`. -/
def idle : State := withOpcode 0x200 0x1200 State.reset

theorem witness_EncodeOfDecodeGivesTheOpcode :
    decode 0x8AF6 = .ok (.shr 0xA 0xF) ∧ encode (.shr 0xA 0xF) = 0x8AF6 := by decide
theorem witness_DecodeAgreesWithTheOpcodeMap :
    decode 0x00EE = .ok .ret ∧
    (opcodeTable[33]?.map fun r => (r.pattern, r.matches 0xFF65)) = some ("Fx65", true) := by decide
theorem witness_FetchIsBigEndian :
    let s : State := withBytes 0xFFE [0x12, 0x34] { State.reset with pc := 0xFFE }
    s.pc.toNat + 1 ≤ 0xFFF ∧ (fetch s).toOption = some 0x1234 := by decide
theorem witness_FetchAboveMemoryFaults :
    ({ State.reset with pc := 0xFFF } : State).halt = none ∧
    ({ State.reset with pc := 0xFFF } : State).pc.toNat = 0xFFF ∧
    ({ State.reset with pc := 0x1000 } : State).pc.toNat > 0xFFF := by decide
theorem witness_IllegalOpcodeFaults :
    State.reset.halt = none ∧ fetch State.reset = .ok 0x0000 ∧ decode 0x0000 = .error .family0 :=
  ⟨rfl, rfl, rfl⟩
theorem witness_StepRunsTheDecodedInstruction :
    clsNext.halt = none ∧ nextEvent clsNext = .step 0x5A ∧ fetch clsNext = .ok 0x00E0 ∧
    decode 0x00E0 = .ok .cls := ⟨rfl, rfl, rfl, rfl⟩
/-- With an empty schedule the next event is a `Step` with the free byte. -/
theorem witness_StepRunsTheDecodedInstruction_free :
    idle.halt = none ∧ nextEvent idle = .step (Config.randomByte 0) ∧ fetch idle = .ok 0x1200 ∧
    decode 0x1200 = .ok (.jp 0x200) := ⟨rfl, rfl, rfl, rfl⟩
theorem witness_HaltedCoreIgnoresEvents : stopped.halt ≠ none ∧ HostEvent.tick ≠ .reset := by decide
theorem witness_FinishedProgramStays : finished idle = true := by decide
theorem witness_TickCountsBothTimersDown :
    let s : State := { State.reset with dt := 0, st := 255 }
    s.halt = none ∧ (tick s).dt = 0 ∧ (tick s).st = 254 := by decide
theorem witness_SetKeySetsOneFlag :
    State.reset.halt = none ∧ 15 < 16 ∧ 16 ≤ 16 ∧ (setKey 15 true State.reset).keyDown 15 = true := by
  decide
theorem witness_LoadProgramCopiesTheBytes :
    State.reset.halt = none ∧ (List.replicate 3584 (0xAA : Byte)).length ≤ 3584 ∧
    3584 < (List.replicate 3585 (0xAA : Byte)).length := by
  rw [List.length_replicate, List.length_replicate]; decide
theorem witness_ReturnPopsThePc :
    ({ State.reset with stack := [0xABC, 0x202] } : State).stack = [0xABC] ++ [0x202] ∧
    State.reset.stack = [] := by decide
theorem witness_ReturnResumesBehindTheCall :
    let t : State := { State.reset with stack := [0x202], pc := 0x300 }
    exec (.call 0x300) State.reset = .next t ∧ ({ t with pc := 0x350 } : State).stack = t.stack :=
  ⟨rfl, rfl⟩
theorem witness_SubtractFlagsGreater_other_than_VF : (0xE : RegId) ≠ 0xF := by decide
theorem witness_RandomIsMasked : ({ State.reset with rand := 0xA7 } : State).rand = 0xA7 := by decide
theorem witness_DecimalDigitsAreStored :
    ({ State.reset with i := 0xFFD } : State).i.toNat + 2 ≤ 0xFFF := by decide
theorem witness_RegisterBlockIsStored :
    ({ State.reset with i := 0xFF0 } : State).i.toNat + (0xF : RegId).toNat ≤ 0xFFF ∧
    (0xF : RegId).toNat ≤ (0xF : RegId).toNat := by decide
theorem witness_RegisterBlockIsLoaded :
    ({ State.reset with i := 0xFFF } : State).i.toNat + (0 : RegId).toNat ≤ 0xFFF ∧
    (0 : RegId).toNat ≤ (0 : RegId).toNat ∧ (0 : RegId).toNat < (1 : RegId).toNat := by decide
/-- S8's store of V0 to V3, then other registers and the same memory and I. -/
theorem witness_StoreThenLoadRestoresRegisters :
    ∃ t u : State, exec (.storeRegs 3) { start [(0, 1), (1, 2), (2, 3), (3, 4)] with i := 0x300 } = .next t ∧
      u.mem = t.mem ∧ u.i = t.i ∧ u.reg 3 ≠ 4 :=
  ⟨_, { State.reset with mem := _, i := 0x300 }, rfl, rfl, rfl, by decide⟩
theorem witness_BlockAccessAboveMemoryFaults :
    0xFFE + 2 > 0xFFF ∧ 0xFFF + (1 : RegId).toNat > 0xFFF ∧ 0x1000 + (0 : RegId).toNat > 0xFFF ∧
    (1 : Nibble) ≠ 0 ∧ 0x1000 + (1 : Nibble).toNat - 1 > 0xFFF ∧
    max ({ State.reset with i := 0x2000 } : State).i.toNat 0x1000 = 0x2000 := by decide
/-- T-IDX-23. -/
theorem witness_FetchSeesStoredRegisters :
    let s : State := { start [(0, 0x12), (1, 2)] with i := 0x202 }
    ∃ t : State, exec (.storeRegs 1) s = .next t ∧ s.i.toNat + (1 : RegId).toNat ≤ 0xFFF ∧
      (0 : RegId).toNat + 1 ≤ (1 : RegId).toNat ∧ t.pc.toNat = s.i.toNat + (0 : RegId).toNat :=
  ⟨_, rfl, by decide, by decide, by decide⟩
/-- T-IDX-9's digits as code: 1, 2, 3 at 0x300 are fetched as 0x0102 and 0x0203; and the last `I` that
stores inside memory. -/
theorem witness_FetchSeesStoredRegisters_digits :
    let s : State := { start [(4, 123)] with i := 0x300 }
    s.i.toNat + 2 ≤ 0xFFF ∧ (0xFFD : Word).toNat + 2 ≤ 0xFFF ∧
    (nextState (exec (.ldB 4) s)).map (fun t => ((fetch { t with pc := 0x300 }).toOption,
      (fetch { t with pc := 0x301 }).toOption)) = some (some 0x0102, some 0x0203) := by decide
theorem witness_CanonicalMemoriesThatReadAlikeAreEqual :
    let m : Memory := (Memory.write [] 0x300 7).write 0x200 9
    let n : Memory := (Memory.write [] 0x200 9).write 0x300 7
    m.wf ∧ n.wf ∧ m = n ∧ m.length = 2 := by decide
theorem witness_ClearUnsetsEveryCell : clsNext.halt = none ∧ fetch clsNext = .ok 0x00E0 := ⟨rfl, rfl⟩
/-- Both outcomes of `cls_event`: T-DRW-1, another opcode, no `Step`, and a halted core; and the index
boundaries of `framebuffer`. -/
theorem witness_OutputsShowTheStateAndTheStep :
    clsEvent (.step 0) clsNext = true ∧ clsEvent (.step 0) idle = false ∧
    clsEvent .tick clsNext = false ∧ clsEvent (.step 0) { clsNext with halt := stopped.halt } = false ∧
    pcOut (.step 0) clsNext = some 0x202 ∧ pcOut (.step 0) stopped = some 0x200 ∧
    pcOut .tick clsNext = none ∧ 63 < 64 ∧ 31 < 32 ∧ 63 + 64 * 31 = 2047 := by decide
/-- T-DRW-16's fifteen rows, and both outcomes of `collided`. -/
theorem witness_SpriteTogglesExactlyItsTargets :
    let m : Memory := (withBytes 0x300 (List.replicate 15 0x80) State.reset).mem
    15 ≤ 15 ∧ (drawSprite m Display.clear 63 31 15 0x300).toOption.map Prod.snd = some false ∧
    (drawSprite m (Display.clear.toggle 63) 63 31 15 0x300).toOption.map Prod.snd = some true := by decide
/-- T-DRW-8's sprite: the first draw collides on (1,0), the second on (0,0), which was unset before. -/
theorem witness_DrawingTwiceRestoresTheDisplay :
    let m : Memory := (withBytes 0x300 [0xC0] State.reset).mem
    1 ≤ 15 ∧
    drawSprite m (Display.clear.toggle 1) 0 0 1 0x300 = .ok (Display.clear.toggle 0, true) ∧
    drawSprite m (Display.clear.toggle 0) 0 0 1 0x300 = .ok (Display.clear.toggle 1, true) :=
  ⟨by decide, by rfl, by rfl⟩
theorem witness_DrawWritesDisplayAndFlag :
    ((0 : Nibble) = 0 ∨ ({ State.reset with i := 0xFFFF } : State).i.toNat + (0 : Nibble).toNat ≤ 0x1000) ∧
    ({ State.reset with i := 0xFF1 } : State).i.toNat + (15 : Nibble).toNat ≤ 0x1000 := by decide
theorem witness_KeySkipsTestTheFlag :
    ((start [(1, 15)]).reg 1).toNat ≤ 15 ∧ ((start [(1, 16)]).reg 1).toNat > 15 := by decide
theorem witness_WaitForKeyTakesTheGreatestKey :
    (15 < 16 ∧ (withKeys [2, 15] State.reset).keyDown 15 = true ∧
      ∀ j, 15 < j → j < 16 → (withKeys [2, 15] State.reset).keyDown j = false) ∧
    (0 < 16 ∧ (withKeys [0] State.reset).keyDown 0 = true ∧
      ∀ j, 0 < j → j < 16 → (withKeys [0] State.reset).keyDown j = false) ∧
    ∀ k, k < 16 → State.reset.keyDown k = false := by
  refine ⟨⟨by decide, by decide, fun j _ _ => by omega⟩, ⟨by decide, by decide, ?_⟩, by decide⟩
  have h : ∀ j, j < 16 → 0 < j → (withKeys [0] State.reset).keyDown j = false := by decide
  exact fun j h0 h16 => h j h16 h0
theorem witness_EveryInstructionSetsPcAsListed :
    State.reset.halt = none ∧
    (nextState (exec (.seImm 1 0) State.reset)).map (fun t => (t.halt, t.pc)) = some (none, 0x204) ∧
    (nextState (stepEvent 0 State.reset)).map (fun t => (t.halt.isSome, t.pc)) = some (true, 0x200) := by
  decide
theorem witness_OnlyTheListedInstructionsWrite :
    (nextState (exec (.ldB 0) { start [(0, 1)] with i := 0x300 })).map (fun t => decide (t.mem ≠ [])) =
      some true ∧
    (nextState (exec (.drw 0 0 5) State.reset)).map (fun t => decide (t.pix ≠ State.reset.pix)) =
      some true ∧
    (nextState (exec (.ldI 7) State.reset)).map (fun t => decide (t.i ≠ 0)) = some true ∧
    (nextState (exec (.call 7) State.reset)).map (fun t => decide (t.stack ≠ [])) = some true ∧
    (nextState (exec (.ldDtVx 1) (start [(1, 9)]))).map (fun t => decide (t.dt ≠ 0)) = some true ∧
    (nextState (exec (.ldStVx 1) (start [(1, 9)]))).map (fun t => decide (t.st ≠ 0)) = some true := by
  decide
theorem witness_OnlyTheListedInstructionsWriteVF :
    State.reset.halt = none ∧ (0xE : RegId) ≠ 0xF ∧
    (nextState (exec (.subReg 1 2) (start [(1, 5), (2, 3)]))).map (fun t => (t.halt, t.reg 0xF)) =
      some (none, 1) ∧
    (nextState (exec (.addReg 0xE 2) (start [(0xE, 0xFF), (2, 3)]))).map
      (fun t => (t.halt, t.reg 0xF)) = some (none, 0) := by decide
theorem witness_SoundTimerIsInvisible : ∀ x, Instr.ldVxDt 3 ≠ .ldStVx x := by decide
theorem witness_KeypadIsSeenOnlyByKeyInstructions :
    ∀ x, Instr.ret ≠ .skp x ∧ Instr.ret ≠ .sknp x ∧ Instr.ret ≠ .ldVxK x := by decide
theorem witness_DisplayIsSeenOnlyByDraw :
    (∀ x y n, Instr.cls ≠ .drw x y n) ∧ ∃ t, exec .cls State.reset = .next t := by
  refine ⟨fun _ _ _ h => ?_, _, rfl⟩
  cases h
theorem witness_FaultingStepIsPrecise :
    State.reset.halt = none ∧
    (nextState (stepEvent 0 State.reset)).map (fun t => t.halt.isSome) = some true := by decide
/-- T-FLT-5's record is a legal one, and a halted state with it meets the invariant. -/
theorem witness_haltLegal : stopped.mem.wf ∧ haltLegal stopped :=
  ⟨by decide, rfl, 0x0000, .family0, rfl, rfl, rfl, rfl⟩

/-- A running state with memory, stack and schedule in use. -/
def inUse : State := { clsNext with stack := [0x1000] }
theorem inUse_fields : inUse.halt = none ∧ inUse.pc = 0x200 ∧ inUse.stack = [0x1000] := ⟨rfl, rfl, rfl⟩
theorem witness_EveryStepKeepsTheInvariant :
    (inUse.mem.wf ∧ addressesBounded inUse ∧ haltLegal inUse) ∧
    (nextState (step inUse)).map (·.pc) = some 0x202 :=
  ⟨⟨by decide, by simp [addressesBounded, inUse_fields], by simp [haltLegal, inUse_fields]⟩, by decide⟩

end Sys2Proof.Tests
end

section
/-! PROOFS. How PC changes (spec 10_state.md R28): what a meaning that answers a running state has done, and
what a faulting step has done. -/

namespace Sys2Proof.Machine

/-! ## Words, registers and skips -/

theorem zext16_toNat {w : Nat} (h : w ≤ 16) (b : BitVec w) : (zext16 b).toNat = b.toNat :=
  BitVec.toNat_setWidth_of_le h

/-- The sum of Bnnn is exact: 0xFFF + 0xFF fits 16 bits (R123). -/
theorem zext16_add_zext16_toNat (nnn : Addr) (b : Byte) :
    (zext16 nnn + zext16 b).toNat = nnn.toNat + b.toNat := by
  rw [BitVec.toNat_add, zext16_toNat (by decide), zext16_toNat (by decide)]
  omega

@[simp] theorem State.setRegsFrom_pc (s : State) (k : Nat) (bs : List Byte) :
    (s.setRegsFrom k bs).pc = s.pc := by
  rw [State.setRegsFrom_eq]

/-- The skip of ExA1, whose condition is that the key is not down (R211). -/
theorem State.skipIf_not_pc (s : State) (c : Bool) :
    (s.skipIf (!c)).pc = if c then s.pc + 2 else s.pc + 4 := by
  cases c <;> rfl

/-! ## The key scan -/

/-- A scan that lets each key down overwrite the choice ends with none exactly when it began with none and
met no key that is down. -/
theorem foldl_keyDown_eq_none (s : State) (ks : List Nat) (found : Option Nat) :
    ks.foldl (fun found k => if s.keyDown k then some k else found) found = none ↔
      found = none ∧ ∀ k ∈ ks, s.keyDown k = false := by
  induction ks generalizing found with
  | nil => simp
  | cons k ks ih =>
    rw [List.foldl_cons, ih]
    cases hk : s.keyDown k <;> simp [hk]

/-- The scan of Fx0A finds no key exactly when none of the sixteen is down (R212). -/
theorem State.lastKeyDown_eq_none_iff (s : State) :
    s.lastKeyDown = none ↔ ¬ ∃ k, k < 16 ∧ s.keyDown k = true := by
  simp [State.lastKeyDown, foldl_keyDown_eq_none]

/-! ## Answers that leave the machine running -/

theorem haltedBy_not_running {kind : FaultKind} {opcode : Option Word} {info : FaultInfo} {s : State} :
    (haltedBy kind opcode info s).halt ≠ none := by
  simp

/-- A checked access after which the machine still runs went through. -/
theorem orRaise_running {α : Type} {instr : Instr} {s t : State} {r : Except Nat α} {k : α → Result}
    (h : orRaise instr s r k = .next t) (ht : t.halt = none) :
    ∃ a, r = .ok a ∧ k a = .next t := by
  obtain ⟨a, hr, hk⟩ | ⟨addr, -, rfl⟩ := orRaise_next h
  · exact ⟨a, hr, hk⟩
  · exact absurd ht haltedBy_not_running

/-- A key test after which the machine still runs went on with the key's flag. -/
theorem withKey_running {instr : Instr} {x : RegId} {s t : State} {k : Bool → Result}
    (h : withKey instr x s k = .next t) (ht : t.halt = none) :
    k (s.keyDown (s.reg x).toNat) = .next t := by
  by_cases hx : (s.reg x).toNat ≤ 15
  · rwa [withKey_ok hx] at h
  · rw [withKey_error (by omega)] at h
    cases h
    exact absurd ht haltedBy_not_running

/-- A return after which the machine still runs has popped its PC (R120). -/
theorem execRet_running {s t : State} (h : execRet s = .next t) (ht : t.halt = none) :
    s.stack.getLast? = some t.pc := by
  cases hs : s.stack.getLast? with
  | none =>
    simp only [execRet, hs, raise_eq] at h
    cases h
    exact absurd ht haltedBy_not_running
  | some a =>
    simp only [execRet, hs] at h
    cases h
    rfl

/-- Fx0A goes on when a key is down and waits at its own address otherwise (R212). -/
theorem execLdVxK_next_pc {x : RegId} {s t : State} (h : execLdVxK x s = .next t) :
    t.pc = if ∃ k, k < 16 ∧ s.keyDown k = true then s.pc + 2 else s.pc := by
  cases hs : s.lastKeyDown with
  | none =>
    rw [if_neg (s.lastKeyDown_eq_none_iff.1 hs)]
    simp only [execLdVxK, hs] at h
    cases h
    rfl
  | some k =>
    have hdown : ∃ k, k < 16 ∧ s.keyDown k = true := by
      by_contra hnone
      simp [s.lastKeyDown_eq_none_iff.2 hnone] at hs
    rw [if_pos hdown]
    simp only [execLdVxK, hs] at h
    cases h
    rfl

/-! ## Faults -/

/-- One instruction's step either leaves the halt latch alone or takes a fault, in fetch, in decode or in
execution, which keeps every other field (R236). -/
theorem runInstr_next_halt {s t : State} (h : runInstr s = .next t) :
    t.halt = s.halt ∨ ∃ kind opcode info, t = haltedBy kind opcode info s := by
  obtain ⟨_, -, hr⟩ | ⟨_, _, -, -, hr⟩ | ⟨_, _, -, -, hr⟩ := runInstr_cases s <;> rw [hr] at h
  · cases h
    exact .inr ⟨_, _, _, rfl⟩
  · cases h
    exact .inr ⟨_, _, _, rfl⟩
  · obtain hsame | ⟨kind, info, ht⟩ := exec_next_halt h
    · exact .inl hsame
    · exact .inr ⟨kind, _, info, ht⟩

/-- A step that halts the machine leaves PC where it was (R28, R236). -/
theorem stepEvent_halts_pc {s t : State} {rand : Byte} (hs : s.halt = none)
    (h : stepEvent rand s = .next t) (ht : t.halt ≠ none) : t.pc = s.pc := by
  rw [stepEvent_of_running hs] at h
  obtain hsame | ⟨_, _, _, rfl⟩ := runInstr_next_halt h
  · exact absurd (hsame.trans hs) ht
  · rfl

/-! ## The table of R28 -/

/-- Settles O51: the instructions fall into those that may fault (where a running answer means that the
check went through), the skips, the jumps, and the rest, whose meaning ends in `State.advance`. -/
theorem everyInstructionSetsPcAsListed : Obligations.EveryInstructionSetsPcAsListed := by
  refine ⟨fun instr s t _ h ht => ?_, fun s t rand hs h ht => stepEvent_halts_pc hs h ht⟩
  cases instr
  case ret => exact execRet_running h ht
  case ldVxK => exact execLdVxK_next_pc h
  case drw | ldB | storeRegs =>
    obtain ⟨_, -, hk⟩ := orRaise_running h ht
    cases hk
    rfl
  case loadRegs =>
    obtain ⟨_, -, hk⟩ := orRaise_running h ht
    cases hk
    simp
  case skp x =>
    simp only [exec, execSkp] at h
    cases withKey_running h ht
    exact s.skipIf_pc _
  case sknp x =>
    simp only [exec, execSknp] at h
    cases withKey_running h ht
    exact s.skipIf_not_pc _
  case seImm | sneImm | seReg | sneReg =>
    cases h
    simp [State.skipIf_pc]
  case jp nnn =>
    cases h
    exact zext16_toNat (by decide) nnn
  case call nnn =>
    cases h
    exact ⟨zext16_toNat (by decide) nnn, List.getLast?_concat⟩
  case jpV0 nnn =>
    cases h
    exact zext16_add_zext16_toNat nnn (s.reg 0)
  all_goals
    cases h
    rfl

end Sys2Proof.Machine
end

section
/-! PROOFS. Memory as the fetch reads it (spec 20_memory.md R62). -/

namespace Sys2Proof.Machine

/-- Settles O8: such a fetch answers the two bytes joined, and joining them gives the first the weight 256. -/
theorem fetchIsBigEndian : Obligations.FetchIsBigEndian :=
  fun _ hpc => ⟨_, fetch_ok hpc, joinBytes_toNat _ _⟩

end Sys2Proof.Machine
end

section
/-! PROOFS. Jump, call and the register skips (spec 40_flow.md R121, R122, R124 to R127). -/

namespace Sys2Proof.Machine

/-! ## A change of PC alone -/

/-- Every field but PC is the same field, so each clause of the frame is an equation of a term with itself. -/
theorem onlyPc_setPc (s : State) (a : Word) : OnlyPc s { s with pc := a } :=
  ⟨fun _ _ => rfl, fun _ => rfl, fun _ => rfl, rfl, rfl, ⟨rfl, rfl⟩, rfl, rfl, rfl, rfl, rfl⟩

theorem onlyPc_skipIf (s : State) (c : Bool) : OnlyPc s (s.skipIf c) := onlyPc_setPc s _

/-- A meaning that answers a skip on the test `c` of the condition `p` goes on at PC + 4 when `p` holds and
at PC + 2 otherwise, and changes nothing but PC. -/
theorem skip_of_condition {p : Prop} [Decidable p] {c : Bool} {s : State} {r : Result}
    (hr : r = .next (s.skipIf c)) (hc : c = true ↔ p) :
    ∃ t, r = .next t ∧ t.pc = (if p then s.pc + 4 else s.pc + 2) ∧ OnlyPc s t := by
  refine ⟨s.skipIf c, hr, ?_, onlyPc_skipIf s c⟩
  simp only [State.skipIf_pc, hc]

/-! ## Jump and call -/

/-- Settles O19: the meaning updates PC alone, and widening `nnn` to 16 bits keeps its value. -/
theorem jumpSetsPc : Obligations.JumpSetsPc :=
  fun nnn s => ⟨_, rfl, zext16_toNat (by decide) nnn, onlyPc_setPc s (zext16 nnn)⟩

/-- The branch of 2nnn for a full stack is never taken, since the stack has no limit (R122). -/
theorem execCall_eq (nnn : Addr) (s : State) :
    execCall nnn s = .next { s with stack := s.stack ++ [s.pc + 2], pc := zext16 nnn } :=
  if_pos (stackHasRoom_eq s.stack.length)

/-- Settles O20: at every depth the call answers the state with PC and the stack replaced, and each clause
of the frame reads a field that was not replaced. -/
theorem callPushesReturnAddress : Obligations.CallPushesReturnAddress :=
  fun nnn s => ⟨_, execCall_eq nnn s, zext16_toNat (by decide) nnn, rfl,
    fun _ _ => rfl, fun _ => rfl, fun _ => rfl, rfl, ⟨rfl, rfl⟩, rfl, rfl, rfl, rfl, rfl⟩

/-! ## Skips -/

/-- Settles O24: both are skips, one on the test that Vx equals `nn` and one on its opposite. -/
theorem immediateSkips : Obligations.ImmediateSkips :=
  fun _ _ _ => ⟨skip_of_condition rfl beq_iff_eq, skip_of_condition rfl bne_iff_ne⟩

/-- Settles O25: both are skips, one on the test that Vx equals Vy and one on its opposite. -/
theorem registerSkips : Obligations.RegisterSkips :=
  fun _ _ _ => ⟨skip_of_condition rfl beq_iff_eq, skip_of_condition rfl bne_iff_ne⟩

end Sys2Proof.Machine
end

section
/-! PROOFS. Loads and the addition of an immediate (spec 41_load_alu.md R140, R141, R142). -/

namespace Sys2Proof.Machine

/-! ## A change of one register and PC -/

/-- Register `x` is the one exception of the frame, so each clause reads another register or a field that
was not replaced. -/
theorem writesOnly_setReg_advance (s : State) (x : RegId) (b : Byte) :
    WritesOnly [x] s (s.setReg x b).advance := by
  refine ⟨rfl, fun r hr => ?_, fun _ => rfl, fun _ => rfl, rfl, rfl, ⟨rfl, rfl⟩, rfl, rfl, rfl, rfl, rfl⟩
  exact s.reg_setReg_other b (List.ne_of_not_mem_cons hr)

/-- A meaning that writes the byte `b` to Vx and goes on leaves `b` in Vx and changes nothing but Vx and
PC. -/
theorem writes_register {x : RegId} {b : Byte} {s : State} {r : Result}
    (hr : r = .next (s.setReg x b).advance) : ∃ t, r = .next t ∧ t.reg x = b ∧ WritesOnly [x] s t :=
  ⟨_, hr, s.reg_setReg_same x b, writesOnly_setReg_advance s x b⟩

/-! ## Loads -/

/-- Settles O26: both write one byte to Vx, `nn` and the old Vy. -/
theorem loadFormsWriteVx : Obligations.LoadFormsWriteVx :=
  fun _ _ _ _ => ⟨writes_register rfl, writes_register rfl⟩

/-! ## Addition -/

/-- The sum of two bytes is kept modulo 256 (R141, R146). -/
theorem add8_toNat (a b : Byte) : (add8 a b).toNat = (a.toNat + b.toNat) % 256 :=
  BitVec.toNat_ofNat _ 8

/-- Settles O27: the one byte written is the wrapped sum, and no flag is written after it. -/
theorem addImmediateWraps : Obligations.AddImmediateWraps := by
  intro x nn s
  obtain ⟨t, ht, hx, hframe⟩ := writes_register (x := x) (r := exec (.addImm x nn) s) rfl
  exact ⟨t, ht, hx ▸ add8_toNat (s.reg x) nn, hframe⟩

end Sys2Proof.Machine
end

section
/-! PROOFS. The index register (spec 42_index_memory.md R170, R171). -/

namespace Sys2Proof.Machine

/-! ## A change of I and PC -/

/-- Nothing but I and PC changed, and PC went on by one instruction: the frame of a form that writes I. -/
def WritesOnlyIndex (s t : State) : Prop :=
  t.pc = s.pc + 2 ∧ SameRegsExcept [] s t ∧ SameMemory s t ∧ SameDisplay s t ∧ t.stack = s.stack ∧
    SameTimers s t ∧ SameInputs s t

/-- Every field but I and PC is the same field, so each clause of the frame is an equation of a term with
itself. -/
theorem writesOnlyIndex_advance (s : State) (a : Word) : WritesOnlyIndex s { s with i := a }.advance :=
  ⟨rfl, fun _ _ => rfl, fun _ => rfl, fun _ => rfl, rfl, ⟨rfl, rfl⟩, rfl, rfl, rfl, rfl, rfl⟩

/-- A meaning that writes the word `a` to I and goes on leaves the value of `a` in I and changes nothing but
I and PC. -/
theorem writes_index {a : Word} {n : Nat} {s : State} {r : Result}
    (hr : r = .next { s with i := a }.advance) (ha : a.toNat = n) :
    ∃ t, r = .next t ∧ t.i.toNat = n ∧ WritesOnlyIndex s t :=
  ⟨_, hr, ha, writesOnlyIndex_advance s a⟩

/-! ## Load and addition -/

/-- Settles O34: the word written is `nnn` widened to 16 bits, which keeps its value. -/
theorem loadIndex : Obligations.LoadIndex :=
  fun nnn _ => writes_index rfl (zext16_toNat (by decide) nnn)

/-- Settles O35: the word written is the sum cut to 16 bits, and the frame holds VF with the other
registers. -/
theorem addToIndexWraps : Obligations.AddToIndexWraps :=
  fun x s => writes_index rfl (BitVec.toNat_ofNat (s.i.toNat + (s.reg x).toNat) 16)

end Sys2Proof.Machine
end

section
/-! PROOFS. Clearing the display and the output `cls_event` (spec 43_display.md R191). -/

namespace Sys2Proof.Machine

/-! ## The encoding of 00E0 -/

/-- 00E0 is matched on all sixteen bits (R191, D14): the branch for the zero family compares the whole word,
and every other branch answers another instruction or an error. -/
theorem decode_eq_cls_iff (op : Word) : decode op = .ok .cls ↔ op = 0x00E0 := by
  refine ⟨fun h => ?_, fun h => h ▸ rfl⟩
  unfold decode at h
  split at h
  case h_1 =>
    split at h
    case isTrue hop => exact hop
    case isFalse => split at h <;> cases h
  all_goals
    repeat' split at h
    all_goals cases h

/-! ## The output `cls_event` -/

/-- In a running state the output of a `Step` tests the fetched word alone (R253). -/
theorem clsEvent_step_iff {s : State} (hs : s.halt = none) (rand : Byte) :
    clsEvent (.step rand) s = true ↔ fetch s = .ok 0x00E0 := by
  cases hf : fetch s with
  | error a => simp [clsEvent, hf]
  | ok op => simp [clsEvent, halted, hs, hf, decode_eq_cls_iff]

/-! ## 00E0 -/

/-- Settles O44: the meaning replaces the display by the clear one and goes on, so each clause of the frame
reads a field that was not replaced. -/
theorem clearUnsetsEveryCell : Obligations.ClearUnsetsEveryCell :=
  ⟨fun _ => ⟨_, rfl, fun k _ => Display.cell_clear k, rfl, fun _ _ => rfl, fun _ => rfl, rfl, rfl, ⟨rfl, rfl⟩,
    rfl, rfl, rfl, rfl, rfl⟩,
   fun _ rand hs => clsEvent_step_iff hs rand⟩

end Sys2Proof.Machine
end

section
/-! PROOFS. The timer forms (spec 44_keypad_timers.md R213 to R215). -/

namespace Sys2Proof.Machine

/-! ## A change of the timers and PC -/

/-- Nothing but the timers and PC changed, and PC went on by one instruction: the frame of a form that
writes a timer. -/
def WritesOnlyTimers (s t : State) : Prop :=
  t.pc = s.pc + 2 ∧ SameRegsExcept [] s t ∧ SameMemory s t ∧ SameDisplay s t ∧ t.i = s.i ∧
    t.stack = s.stack ∧ SameInputs s t

/-- Every field but DT, ST and PC is the same field, so each clause of the frame is an equation of a term
with itself. -/
theorem writesOnlyTimers_advance (s : State) (d u : Byte) :
    WritesOnlyTimers s { s with dt := d, st := u }.advance :=
  ⟨rfl, fun _ _ => rfl, fun _ => rfl, fun _ => rfl, rfl, rfl, rfl, rfl, rfl, rfl, rfl⟩

/-! ## Fx07, Fx15 and Fx18 -/

/-- Settles O50: Fx07 writes one byte to Vx, the old DT; Fx15 and Fx18 replace one timer by Vx and give the
other its old value. -/
theorem timerAccess : Obligations.TimerAccess :=
  fun x s => ⟨writes_register rfl,
    ⟨_, rfl, rfl, rfl, writesOnlyTimers_advance s (s.reg x) s.st⟩,
    ⟨_, rfl, rfl, rfl, writesOnlyTimers_advance s s.dt (s.reg x)⟩⟩

end Sys2Proof.Machine
end

section
/-! PROOFS. The host events other than `Step` (spec 60_exceptions.md R244). -/

namespace Sys2Proof.Machine

/-! ## `Tick` -/

/-- The test for zero is what keeps the subtraction of bytes from wrapping, so it is the truncated one of the
natural numbers. -/
theorem countDown_toNat (b : Byte) : (countDown b).toNat = b.toNat - 1 := by
  unfold countDown
  split
  case isTrue hpos => exact BitVec.toNat_sub_of_le (BitVec.le_def.2 hpos)
  case isFalse hzero => omega

theorem deliver_tick_of_running {s : State} (hs : s.halt = none) :
    deliver .tick s = .next { s with dt := countDown s.dt, st := countDown s.st } :=
  congrArg Host.Outcome.next (unlessHalted_of_running hs _)

/-- Settles O16: a running state gets its two timers replaced and nothing else, so each clause of the frame
reads a field that was not replaced. -/
theorem tickCountsBothTimersDown : Obligations.TickCountsBothTimersDown :=
  fun s hs => ⟨_, deliver_tick_of_running hs, countDown_toNat s.dt, countDown_toNat s.st, rfl, fun _ _ => rfl,
    fun _ => rfl, fun _ => rfl, rfl, rfl, rfl, rfl, rfl, rfl, rfl⟩

end Sys2Proof.Machine
end

section
/-! PROOFS. Encoding and decoding are inverse to each other, and decode is the opcode map (spec
30_encoding.md R95, R96, R102). -/

namespace Sys2Proof

/-! ## Decode of encode -/

/-- A field that is 0 in the match value holds the operand alone. -/
theorem or_operand {w : Nat} {m : BitVec w} (hm : m = 0#w) (b : BitVec w) : m ||| b = b := by
  rw [hm, BitVec.zero_or]

/-- The family, and the sub-function where there is one, choose the branch of the instruction's own row, and
the fields read there are the operands its format placed. -/
theorem decode_encode (i : Instr) : decode (encode i) = .ok i := by
  cases i
  case cls | ret => rfl
  case jp | call | ldI | jpV0 =>
    simp (disch := decide) only [encode, decode, fieldFam_encodeA, fieldNNN_encodeA, or_operand]
    rfl
  case seImm | sneImm | ldImm | addImm | rnd =>
    simp (disch := decide) only [encode, decode, fieldFam_encodeXI, fieldX_encodeXI,
      fieldNN_encodeXI, or_operand]
    rfl
  case drw =>
    simp (disch := decide) only [encode, decode, fieldFam_encodeXYN, fieldX_encodeXYN, fieldY_encodeXYN,
      fieldN_encodeXYN, or_operand]
    rfl
  case skp | sknp | ldVxDt | ldVxK | ldDtVx | ldStVx | addI | ldF | ldB | storeRegs | loadRegs =>
    simp (disch := decide) only [encode, decode, fieldFam_encodeXF, fieldX_encodeXF,
      fieldNN_encodeXF, or_operand]
    rfl
  all_goals
    simp (disch := decide) only [encode, decode, fieldFam_encodeXY, fieldX_encodeXY, fieldY_encodeXY,
      fieldN_encodeXY, or_operand]
    rfl

/-- Settles O1: for each of the five formats with operands, the fields of an encoding are its operands. -/
theorem decodeOfEncodeGivesTheInstruction : Obligations.DecodeOfEncodeGivesTheInstruction :=
  decode_encode

/-- Settles O4: the two stored bytes join to the encoding again, and the encoding decodes to the
instruction. -/
theorem storedBytesDecodeToTheInstruction : Obligations.StoredBytesDecodeToTheInstruction :=
  fun i rest => by simp [encodeBytes, decodeBytes, decode_encode]

/-- Settles O5: closed words, decoded by evaluation. -/
theorem wordsOfTheTableDecode : Obligations.WordsOfTheTableDecode := by
  unfold Obligations.WordsOfTheTableDecode
  decide

/-! ## A word is its fields -/

theorem fieldFam_append_fieldNNN (op : Word) : fieldFam op ++ fieldNNN op = op :=
  BitVec.extractLsb'_append_extractLsb'

theorem fieldX_append_fieldNN (op : Word) : fieldX op ++ fieldNN op = fieldNNN op :=
  BitVec.extractLsb'_append_extractLsb'_eq_extractLsb' rfl

theorem fieldY_append_fieldN (op : Word) : fieldY op ++ fieldN op = fieldNN op :=
  BitVec.extractLsb'_append_extractLsb'_eq_extractLsb' rfl

/-- Two words are equal when they agree on the fields of format `A`. -/
theorem word_ext_A {a b : Word} (hfam : fieldFam a = fieldFam b) (hnnn : fieldNNN a = fieldNNN b) :
    a = b := by
  rw [← fieldFam_append_fieldNNN a, hfam, hnnn, fieldFam_append_fieldNNN]

/-- Two words are equal when they agree on the fields of format `XI`. -/
theorem word_ext_XI {a b : Word} (hfam : fieldFam a = fieldFam b) (hx : fieldX a = fieldX b)
    (hnn : fieldNN a = fieldNN b) : a = b :=
  word_ext_A hfam (by rw [← fieldX_append_fieldNN a, hx, hnn, fieldX_append_fieldNN])

/-- Two words are equal when they agree on the fields of format `XYN`. -/
theorem word_ext_XYN {a b : Word} (hfam : fieldFam a = fieldFam b) (hx : fieldX a = fieldX b)
    (hy : fieldY a = fieldY b) (hn : fieldN a = fieldN b) : a = b :=
  word_ext_XI hfam hx (by rw [← fieldY_append_fieldN a, hy, hn, fieldY_append_fieldN])

/-! ## Encode of decode -/

section Reassembly

variable {op m : Word} (hfam : fieldFam op = fieldFam m)
include hfam

theorem encodeA_fields (hnnn : fieldNNN m = 0) : encodeA m (fieldNNN op) = op :=
  word_ext_A (by rw [fieldFam_encodeA, hfam]) (by rw [fieldNNN_encodeA, or_operand hnnn])

theorem encodeXI_fields (hx : fieldX m = 0) (hnn : fieldNN m = 0) :
    encodeXI m (fieldX op) (fieldNN op) = op :=
  word_ext_XI (by rw [fieldFam_encodeXI, hfam]) (by rw [fieldX_encodeXI, or_operand hx])
    (by rw [fieldNN_encodeXI, or_operand hnn])

theorem encodeXY_fields (hn : fieldN op = fieldN m) (hx : fieldX m = 0) (hy : fieldY m = 0) :
    encodeXY m (fieldX op) (fieldY op) = op :=
  word_ext_XYN (by rw [fieldFam_encodeXY, hfam]) (by rw [fieldX_encodeXY, or_operand hx])
    (by rw [fieldY_encodeXY, or_operand hy]) (by rw [fieldN_encodeXY, hn])

theorem encodeXYN_fields (hx : fieldX m = 0) (hy : fieldY m = 0) (hn : fieldN m = 0) :
    encodeXYN m (fieldX op) (fieldY op) (fieldN op) = op :=
  word_ext_XYN (by rw [fieldFam_encodeXYN, hfam]) (by rw [fieldX_encodeXYN, or_operand hx])
    (by rw [fieldY_encodeXYN, or_operand hy]) (by rw [fieldN_encodeXYN, or_operand hn])

theorem encodeXF_fields (hnn : fieldNN op = fieldNN m) (hx : fieldX m = 0) : encodeXF m (fieldX op) = op :=
  word_ext_XI (by rw [fieldFam_encodeXF, hfam]) (by rw [fieldX_encodeXF, or_operand hx])
    (by rw [fieldNN_encodeXF, hnn])

end Reassembly

/-- Each branch of decode reads the operands from the fields of its format, so the format puts them back
where they were read; the branch itself fixes the other fields. -/
theorem encode_of_decode {op : Word} {i : Instr} (h : decode op = .ok i) : encode i = op := by
  unfold decode at h
  split at h
  case h_1 =>
    split at h
    case isTrue hop => cases h; exact hop.symm
    case isFalse =>
      split at h
      case isTrue hop => cases h; exact hop.symm
      case isFalse => cases h
  case h_2 hfam | h_3 hfam | h_11 hfam | h_12 hfam => cases h; exact encodeA_fields hfam rfl
  case h_4 hfam | h_5 hfam | h_7 hfam | h_8 hfam | h_13 hfam => cases h; exact encodeXI_fields hfam rfl rfl
  case h_6 hfam | h_10 hfam =>
    split at h
    case isTrue hn => cases h; exact encodeXY_fields hfam hn rfl rfl
    case isFalse => cases h
  case h_9 hfam =>
    split at h <;> cases h
    all_goals exact encodeXY_fields hfam ‹_› rfl rfl
  case h_14 hfam => cases h; exact encodeXYN_fields hfam rfl rfl rfl
  case h_15 hfam =>
    split at h <;> cases h
    all_goals exact encodeXF_fields hfam ‹_› rfl
  case h_16 =>
    have hfam : fieldFam op = 0xF := by
      clear h
      generalize fieldFam op = f at *
      revert f
      decide
    split at h <;> cases h
    all_goals exact encodeXF_fields hfam ‹_› rfl

/-- Settles O2: every branch of decode answers an instruction whose format puts the fields back. -/
theorem encodeOfDecodeGivesTheOpcode : Obligations.EncodeOfDecodeGivesTheOpcode :=
  fun _ _ => encode_of_decode

/-! ## The opcode map -/

theorem fieldFam_and (a b : Word) : fieldFam (a &&& b) = fieldFam a &&& fieldFam b := BitVec.extractLsb'_and

theorem fieldX_and (a b : Word) : fieldX (a &&& b) = fieldX a &&& fieldX b := BitVec.extractLsb'_and

theorem fieldY_and (a b : Word) : fieldY (a &&& b) = fieldY a &&& fieldY b := BitVec.extractLsb'_and

theorem fieldN_and (a b : Word) : fieldN (a &&& b) = fieldN a &&& fieldN b := BitVec.extractLsb'_and

theorem fieldNN_and (a b : Word) : fieldNN (a &&& b) = fieldNN a &&& fieldNN b := BitVec.extractLsb'_and

theorem fieldNNN_and (a b : Word) : fieldNNN (a &&& b) = fieldNNN a &&& fieldNNN b := BitVec.extractLsb'_and

/-- The mask of format `Z` tests every bit. -/
theorem and_FFFF_eq_iff {op m : Word} : op &&& 0xFFFF = m ↔ op = m :=
  iff_of_eq (congrArg (· = m) (BitVec.and_allOnes (x := op)))

/-- The mask of formats `A`, `XI` and `XYN` tests the family. -/
theorem and_F000_eq_iff {op m : Word} (hnnn : fieldNNN m = 0) :
    op &&& 0xF000 = m ↔ fieldFam op = fieldFam m := by
  have hfam : fieldFam (op &&& 0xF000) = fieldFam op := (fieldFam_and op _).trans BitVec.and_allOnes
  have hnnn' : fieldNNN (op &&& 0xF000) = 0 := (fieldNNN_and op _).trans BitVec.and_zero
  refine ⟨fun h => by rw [← hfam, h], fun h => ?_⟩
  exact word_ext_A (hfam.trans h) (hnnn'.trans hnnn.symm)

/-- The mask of format `XY` tests the family and the low nibble. -/
theorem and_F00F_eq_iff {op m : Word} (hx : fieldX m = 0) (hy : fieldY m = 0) :
    op &&& 0xF00F = m ↔ fieldFam op = fieldFam m ∧ fieldN op = fieldN m := by
  have hfam : fieldFam (op &&& 0xF00F) = fieldFam op := (fieldFam_and op _).trans BitVec.and_allOnes
  have hx' : fieldX (op &&& 0xF00F) = 0 := (fieldX_and op _).trans BitVec.and_zero
  have hy' : fieldY (op &&& 0xF00F) = 0 := (fieldY_and op _).trans BitVec.and_zero
  have hn : fieldN (op &&& 0xF00F) = fieldN op := (fieldN_and op _).trans BitVec.and_allOnes
  refine ⟨fun h => ⟨by rw [← hfam, h], by rw [← hn, h]⟩, fun ⟨h, h'⟩ => ?_⟩
  exact word_ext_XYN (hfam.trans h) (hx'.trans hx.symm) (hy'.trans hy.symm) (hn.trans h')

/-- The mask of format `XF` tests the family and the low byte. -/
theorem and_F0FF_eq_iff {op m : Word} (hx : fieldX m = 0) :
    op &&& 0xF0FF = m ↔ fieldFam op = fieldFam m ∧ fieldNN op = fieldNN m := by
  have hfam : fieldFam (op &&& 0xF0FF) = fieldFam op := (fieldFam_and op _).trans BitVec.and_allOnes
  have hx' : fieldX (op &&& 0xF0FF) = 0 := (fieldX_and op _).trans BitVec.and_zero
  have hnn : fieldNN (op &&& 0xF0FF) = fieldNN op := (fieldNN_and op _).trans BitVec.and_allOnes
  refine ⟨fun h => ⟨by rw [← hfam, h], by rw [← hnn, h]⟩, fun ⟨h, h'⟩ => ?_⟩
  exact word_ext_XI (hfam.trans h) (hx'.trans hx.symm) (hnn.trans h')

theorem matches_iff (row : OpcodeRow) (op : Word) : row.matches op = true ↔ op &&& row.mask = row.value :=
  beq_iff_eq

/-- An encoding keeps the bits of its match value that the mask of its format tests. -/
theorem encode_matches_row (i : Instr) :
    ∃ row, opcodeTable[i.row]? = some row ∧ row.matches (encode i) = true := by
  cases i
  all_goals refine ⟨_, rfl, (matches_iff _ _).2 ?_⟩
  case cls | ret => rfl
  case jp | call | ldI | jpV0 => exact (and_F000_eq_iff rfl).2 (fieldFam_encodeA _ _)
  case seImm | sneImm | ldImm | addImm | rnd => exact (and_F000_eq_iff rfl).2 (fieldFam_encodeXI _ _ _)
  case drw => exact (and_F000_eq_iff rfl).2 (fieldFam_encodeXYN _ _ _ _)
  case skp | sknp | ldVxDt | ldVxK | ldDtVx | ldStVx | addI | ldF | ldB | storeRegs | loadRegs =>
    exact (and_F0FF_eq_iff rfl).2 ⟨fieldFam_encodeXF _ _, fieldNN_encodeXF _ _⟩
  all_goals exact (and_F00F_eq_iff rfl rfl).2 ⟨fieldFam_encodeXY _ _ _, fieldN_encodeXY _ _ _⟩

/-- Every row is some instruction's: its match value, where every operand is 0, decodes to one. -/
theorem decode_value_of_row {k : Nat} {row : OpcodeRow} (hrow : opcodeTable[k]? = some row) :
    ∃ i, decode row.value = .ok i ∧ i.row = k := by
  have hk : k < 34 := (List.getElem?_eq_some_iff.1 hrow).1
  interval_cases k <;> cases hrow <;> exact ⟨_, rfl, rfl⟩

/-- The fields a row's mask tests are those decode branches on, so a word that matches the row takes the
row's branch. -/
theorem decode_of_row {op : Word} {i : Instr} {row : OpcodeRow} (hrow : opcodeTable[i.row]? = some row)
    (h : row.matches op = true) : ∃ j, decode op = .ok j ∧ j.row = i.row := by
  rw [matches_iff] at h
  cases i
  all_goals cases hrow
  case cls | ret => exact ⟨_, (congrArg decode (and_FFFF_eq_iff.1 h)).trans rfl, rfl⟩
  case jp | call | ldI | jpV0 | seImm | sneImm | ldImm | addImm | rnd | drw =>
    have hfam := (and_F000_eq_iff rfl).1 h
    exact ⟨_, by rw [decode, hfam]; rfl, by rfl⟩
  case skp | sknp | ldVxDt | ldVxK | ldDtVx | ldStVx | addI | ldF | ldB | storeRegs | loadRegs =>
    obtain ⟨hfam, hnn⟩ := (and_F0FF_eq_iff rfl).1 h
    exact ⟨_, by rw [decode, hfam, hnn]; rfl, by rfl⟩
  all_goals
    obtain ⟨hfam, hn⟩ := (and_F00F_eq_iff rfl rfl).1 h
    exact ⟨_, by rw [decode, hfam, hn]; rfl, by rfl⟩

/-- Settles O3: a decoded word is the encoding of its instruction, which matches the instruction's row; and a
word that matches a row takes its branch. -/
theorem decodeAgreesWithTheOpcodeMap : Obligations.DecodeAgreesWithTheOpcodeMap := by
  refine fun op => ⟨fun i h => encode_of_decode h ▸ encode_matches_row i, fun k row hrow h => ?_⟩
  obtain ⟨i, -, rfl⟩ := decode_value_of_row hrow
  exact decode_of_row hrow h

end Sys2Proof
end

section
/-! PROOFS. What an instruction's answer tells about the state it ran in: that there is one, which fields it
changed, and which fields it did not look at (spec 10_state.md R24, R25, R36; 60_exceptions.md R249). -/

namespace Sys2Proof.Machine

/-! ## Every instruction answers a next state -/

theorem orRaise_answers {α : Type} {instr : Instr} {s : State} {r : Except Nat α} {k : α → Result}
    (hk : ∀ a, ∃ t, k a = .next t) : ∃ t, orRaise instr s r k = .next t := by
  cases r with
  | ok a => exact hk a
  | error addr => exact ⟨_, orRaise_error instr s addr k⟩

/-- Everything the key test can come to. -/
theorem withKey_next {instr : Instr} {x : RegId} {s t : State} {k : Bool → Result}
    (h : withKey instr x s k = .next t) :
    k (s.keyDown (s.reg x).toNat) = .next t ∨
    (15 < (s.reg x).toNat ∧ t = haltedBy .keyIndexOutOfRange (some (encode instr)) (.index (s.reg x)) s) := by
  by_cases hx : (s.reg x).toNat ≤ 15
  · exact .inl (withKey_ok hx k ▸ h)
  · rw [withKey_error (by omega)] at h
    cases h
    exact .inr ⟨by omega, rfl⟩

theorem withKey_answers {instr : Instr} {x : RegId} {s : State} {k : Bool → Result}
    (hk : ∀ c, ∃ t, k c = .next t) : ∃ t, withKey instr x s k = .next t := by
  by_cases hx : (s.reg x).toNat ≤ 15
  · exact withKey_ok hx k ▸ hk _
  · exact ⟨_, withKey_error (by omega) k⟩

theorem execRet_concat {s : State} {below : List Word} {top : Word} (h : s.stack = below ++ [top]) :
    execRet s = .next { s with pc := top, stack := below } := by
  simp [execRet, h]

theorem execRet_nil {s : State} (h : s.stack = []) :
    execRet s = .next (haltedBy .stackUnderflow (some 0x00EE) .none s) := by
  simp only [execRet, h, List.getLast?_nil]
  rfl

/-- Everything a return can come to (R120, R232). -/
theorem execRet_next {s t : State} (h : execRet s = .next t) :
    (∃ below top, s.stack = below ++ [top] ∧ t = { s with pc := top, stack := below }) ∨
    (s.stack = [] ∧ t = haltedBy .stackUnderflow (some 0x00EE) .none s) := by
  obtain hs | ⟨below, top, hs⟩ := s.stack.eq_nil_or_concat'
  · cases (execRet_nil hs).symm.trans h
    exact .inr ⟨hs, rfl⟩
  · cases (execRet_concat hs).symm.trans h
    exact .inl ⟨below, top, hs, rfl⟩

theorem execLdVxK_down {x : RegId} {s : State} {k : Nat} (h : s.lastKeyDown = some k) :
    execLdVxK x s = .next (s.setReg x (BitVec.ofNat 8 k)).advance := by
  simp only [execLdVxK, h]

theorem execLdVxK_up {x : RegId} {s : State} (h : s.lastKeyDown = none) : execLdVxK x s = .next s := by
  simp only [execLdVxK, h]

/-- Everything a wait for a key can come to (R212). -/
theorem execLdVxK_next {x : RegId} {s t : State} (h : execLdVxK x s = .next t) :
    t = s ∨ ∃ b, t = (s.setReg x b).advance := by
  cases hk : s.lastKeyDown with
  | none => exact .inl (Host.Outcome.next.inj (h.symm.trans (execLdVxK_up hk)))
  | some k => exact .inr ⟨_, Host.Outcome.next.inj (h.symm.trans (execLdVxK_down hk))⟩

/-- No instruction stops the machine: a check that fails is a next state too, and a call finds room. -/
theorem exec_answers (i : Instr) (s : State) : ∃ t, exec i s = .next t := by
  cases i
  case ret =>
    obtain h | ⟨below, top, h⟩ := s.stack.eq_nil_or_concat'
    · exact ⟨_, execRet_nil h⟩
    · exact ⟨_, execRet_concat h⟩
  case ldVxK x =>
    cases h : s.lastKeyDown with
    | none => exact ⟨_, execLdVxK_up h⟩
    | some k => exact ⟨_, execLdVxK_down h⟩
  case skp | sknp => exact withKey_answers fun _ => ⟨_, rfl⟩
  case drw | ldB | storeRegs | loadRegs => exact orRaise_answers fun _ => ⟨_, rfl⟩
  all_goals exact ⟨_, rfl⟩

theorem runInstr_answers (s : State) : ∃ t, runInstr s = .next t := by
  obtain ⟨_, -, h⟩ | ⟨_, _, -, -, h⟩ | ⟨_, i, -, -, h⟩ := runInstr_cases s
  · exact ⟨_, h⟩
  · exact ⟨_, h⟩
  · exact h ▸ exec_answers i s

theorem stepEvent_answers (rand : Byte) (s : State) : ∃ t, stepEvent rand s = .next t := by
  by_cases hs : s.halt = none
  · exact stepEvent_of_running hs rand ▸ runInstr_answers _
  · exact ⟨_, stepEvent_of_halted hs rand⟩

/-- Settles O13: the events other than `Step` are functions of the state, and a `Step` answers the state it
found or that of one instruction. -/
theorem everyStepAnswersANextState : Obligations.EveryStepAnswersANextState := by
  intro s
  unfold step
  cases nextEvent s with
  | step rand => exact stepEvent_answers rand (takeEvent s)
  | reset | loadProgram | setKey | tick => exact ⟨_, rfl⟩

/-! ## Block loads -/

/-- A block load that goes through gives the bytes in order (R68), also where it reads none. -/
theorem Memory.loadBlock_next {m : Memory} {a n : Nat} {bs : List Byte} (h : m.loadBlock a n = .ok bs) :
    bs = (List.range n).map fun k => m.read (a + k) := by
  by_cases hn : n = 0
  · subst hn
    exact (Except.ok.inj h).symm
  · by_cases ha : a + n ≤ Config.addrMax + 1
    · exact Except.ok.inj (h.symm.trans (Memory.loadBlock_ok m a n ha))
    · rw [Memory.loadBlock_error m a n hn (by omega)] at h
      cases h

theorem Memory.loadBlock_length {m : Memory} {a n : Nat} {bs : List Byte} (h : m.loadBlock a n = .ok bs) :
    bs.length = n := by
  simp [Memory.loadBlock_next h]

/-! ## The fields an instruction may change -/

/-- Settles O52: a fault leaves every field but the halt latch, and the other answers are those of the
meanings, which name the fields they replace. -/
theorem onlyTheListedInstructionsWrite : Obligations.OnlyTheListedInstructionsWrite := by
  intro instr s t h
  cases instr
  case ret =>
    obtain ⟨_, _, -, rfl⟩ | ⟨-, rfl⟩ := execRet_next h
    · simp
    · simp [haltedBy]
  case ldVxK x =>
    obtain rfl | ⟨_, rfl⟩ := execLdVxK_next h
    · simp
    · simp
  case skp | sknp =>
    simp only [exec, execSkp, execSknp] at h
    obtain hk | ⟨-, rfl⟩ := withKey_next h
    · cases hk; simp
    · simp [haltedBy]
  case drw | ldB | storeRegs =>
    obtain ⟨_, -, hk⟩ | ⟨_, -, rfl⟩ := orRaise_next h
    · cases hk; simp [State.setFlag]
    · simp [haltedBy]
  case loadRegs =>
    obtain ⟨_, -, hk⟩ | ⟨_, -, rfl⟩ := orRaise_next h
    · cases hk; rw [State.setRegsFrom_eq]; simp
    · simp [haltedBy]
  case subReg | shr | subnReg | shl => cases h; simp [State.setRegThenFlag, State.setFlag]
  all_goals cases h; simp

/-! ## The flag -/

theorem flagByte_cases (c : Bool) : flagByte c = 0 ∨ flagByte c = 1 := by
  cases c
  · exact .inl rfl
  · exact .inr rfl

/-- The flag is what VF holds in the end, since it is written last (R152). -/
@[simp] theorem State.setFlag_reg_VF (s : State) (c : Bool) : (s.setFlag c).reg 0xF = flagByte c :=
  s.reg_setReg_same regVF (flagByte c)

/-- Settles O53: a flag instruction writes its flag last; Vx is VF for x = F alone, and the block of Fx65 ends
at Vx; no other meaning writes a register. -/
theorem onlyTheListedInstructionsWriteVF : Obligations.OnlyTheListedInstructionsWriteVF := by
  intro instr s t _ h ht
  cases instr
  case subReg | shr | subnReg | shl => cases h; exact (State.setFlag_reg_VF _ _).symm ▸ flagByte_cases _
  case drw =>
    obtain ⟨r, -, hk⟩ := orRaise_running h ht
    cases hk
    exact (State.setFlag_reg_VF _ _).symm ▸ flagByte_cases _
  case ldImm | addImm | ldReg | orReg | andReg | xorReg | addReg | rnd | ldVxDt =>
    cases h
    exact fun hx => s.reg_setReg_other _ hx.symm
  case ldVxK x =>
    intro hx
    obtain rfl | ⟨_, rfl⟩ := execLdVxK_next h
    · rfl
    · exact s.reg_setReg_other _ hx.symm
  case loadRegs x =>
    intro hx
    obtain ⟨bs, hbs, hk⟩ := orRaise_running h ht
    cases hk
    have hlen := Memory.loadBlock_length hbs
    have hF : (0xF : RegId).toNat = 15 := rfl
    have hxF : x.toNat ≠ 15 := fun e => hx (BitVec.eq_of_toNat_eq e)
    rw [State.advance_reg, State.reg_setRegsFrom _ _ _ (by omega), dif_neg]
    omega
  case ret =>
    obtain ⟨_, _, -, rfl⟩ | ⟨-, rfl⟩ := execRet_next h
    · rfl
    · rfl
  case skp | sknp =>
    simp only [exec, execSkp, execSknp] at h
    cases withKey_running h ht
    rfl
  case ldB | storeRegs =>
    obtain ⟨_, -, hk⟩ := orRaise_running h ht
    cases hk
    rfl
  all_goals cases h; rfl

/-! ## The fields an instruction does not look at -/

/-- A state with its display, its keypad flags and its sound timer replaced. -/
def State.overlay (p : Display → Display) (q : Vector Bool 16 → Vector Bool 16) (b : Byte → Byte)
    (s : State) : State :=
  { s with pix := p s.pix, key := q s.key, st := b s.st }

section Overlay

variable {p : Display → Display} {q : Vector Bool 16 → Vector Bool 16} {b : Byte → Byte}

theorem orRaise_overlay {α : Type} {instr : Instr} {s : State} {r : Except Nat α} {k k' : α → Result}
    (hk : ∀ a, k' a = mapNext (State.overlay p q b) (k a)) :
    orRaise instr (s.overlay p q b) r k' = mapNext (State.overlay p q b) (orRaise instr s r k) := by
  cases r with
  | ok a => exact hk a
  | error addr => rfl

theorem withKey_overlay {instr : Instr} {x : RegId} {s : State} {k k' : Bool → Result}
    (hk : ∀ c, k' c = mapNext (State.overlay p id b) (k c)) :
    withKey instr x (s.overlay p id b) k' = mapNext (State.overlay p id b) (withKey instr x s k) := by
  by_cases hx : (s.reg x).toNat ≤ 15
  · rw [withKey_ok hx, ← hk]
    exact withKey_ok (s := s.overlay p id b) hx k'
  · have hx : 15 < (s.reg x).toNat := by omega
    rw [withKey_error hx]
    exact withKey_error (s := s.overlay p id b) hx k'

theorem State.setRegsFrom_overlay (s : State) (n : Nat) (bs : List Byte) :
    (s.overlay p q b).setRegsFrom n bs = (s.setRegsFrom n bs).overlay p q b := by
  induction bs generalizing s n with
  | nil => rfl
  | cons v bs ih => exact ih (s.setReg (BitVec.ofNat 4 n) v) (n + 1)

/-- An instruction carries a field along that it has no part in: the display when it is neither 00E0 nor
Dxyn, the keypad when it is none of the key instructions, and ST when it is not Fx18. -/
theorem exec_overlay {i : Instr} {s : State} (hp : (i = .cls ∨ ∃ x y n, i = .drw x y n) → p = id)
    (hq : (∃ x, i = .skp x ∨ i = .sknp x ∨ i = .ldVxK x) → q = id)
    (hb : (∃ x, i = .ldStVx x) → b = id) :
    exec i (s.overlay p q b) = mapNext (State.overlay p q b) (exec i s) := by
  cases i
  case cls =>
    obtain rfl := hp (.inl rfl)
    rfl
  case drw x y n =>
    obtain rfl := hp (.inr ⟨x, y, n, rfl⟩)
    exact orRaise_overlay fun _ => rfl
  case ldB | storeRegs => exact orRaise_overlay fun _ => rfl
  case loadRegs =>
    refine orRaise_overlay fun bs => ?_
    rw [State.setRegsFrom_overlay]
    rfl
  case skp x =>
    obtain rfl := hq ⟨x, .inl rfl⟩
    simp only [exec, execSkp]
    exact withKey_overlay fun _ => rfl
  case sknp x =>
    obtain rfl := hq ⟨x, .inr (.inl rfl)⟩
    simp only [exec, execSknp]
    exact withKey_overlay fun _ => rfl
  case ldVxK x =>
    obtain rfl := hq ⟨x, .inr (.inr rfl)⟩
    cases hk : s.lastKeyDown with
    | none => simp only [exec, execLdVxK_up hk]; exact execLdVxK_up (s := s.overlay p id b) hk
    | some k => simp only [exec, execLdVxK_down hk]; exact execLdVxK_down (s := s.overlay p id b) hk
  case ldStVx x =>
    obtain rfl := hb ⟨x, rfl⟩
    rfl
  case ret =>
    obtain hs | ⟨below, top, hs⟩ := s.stack.eq_nil_or_concat'
    · simp only [exec, execRet_nil hs]; exact execRet_nil (s := s.overlay p q b) hs
    · simp only [exec, execRet_concat hs]; exact execRet_concat (s := s.overlay p q b) hs
  all_goals rfl

end Overlay

/-- Settles O54: the overlay that replaces ST alone, which every instruction but Fx18 carries along. -/
theorem soundTimerIsInvisible : Obligations.SoundTimerIsInvisible :=
  fun _ _ b hi => exec_overlay (p := id) (q := id) (b := fun _ => b) (fun _ => rfl) (fun _ => rfl)
    fun ⟨x, hx⟩ => absurd hx (hi x)

/-- Settles O55: the overlay that replaces the keypad alone, which every instruction but the three key
instructions carries along. -/
theorem keypadIsSeenOnlyByKeyInstructions : Obligations.KeypadIsSeenOnlyByKeyInstructions :=
  fun _ _ keys hi => exec_overlay (p := id) (q := fun _ => keys) (b := id) (fun _ => rfl)
    (fun ⟨x, hx⟩ => absurd hx (by simpa using hi x)) fun _ => rfl

/-- Settles O56: the overlay that replaces the display alone, which every instruction but 00E0 and Dxyn carries
along; after 00E0 both displays are clear. -/
theorem displayIsSeenOnlyByDraw : Obligations.DisplayIsSeenOnlyByDraw := by
  intro instr s p t hi h
  by_cases hcls : instr = .cls
  · subst hcls
    cases h
    exact ⟨_, rfl⟩
  · refine ⟨p, ?_⟩
    have hfix := exec_overlay (i := instr) (s := s) (p := fun _ => p) (q := id) (b := id)
      (fun hd => hd.elim (absurd · hcls) fun ⟨x, y, n, hx⟩ => absurd hx (hi x y n))
      (fun _ => rfl) fun _ => rfl
    rw [h] at hfix
    exact hfix

end Sys2Proof.Machine
end

section
/-! PROOFS. The invariant of the machine: it holds after reset and every step keeps it (spec 10_state.md R27,
R28, 20_memory.md R60, 60_exceptions.md R230 to R236). -/

namespace Sys2Proof.Machine

/-! ## The record of a checked access -/

/-- An error of a block store names the lowest address above 0xFFF, and its last byte lies there (R233). -/
theorem Memory.storeBlock_error_inv {m : Memory} {a addr : Nat} {bs : List Byte}
    (h : m.storeBlock a bs = .error addr) :
    addr = max a (Config.addrMax + 1) ∧ bs ≠ [] ∧ Config.addrMax + 1 < a + bs.length := by
  have hne : bs ≠ [] := by
    rintro rfl
    cases h
  have ha : Config.addrMax + 1 < a + bs.length := by
    by_contra hin
    rw [Memory.storeBlock_ok m a bs (by omega)] at h
    cases h
  rw [Memory.storeBlock_error m a bs hne ha] at h
  exact ⟨(Except.error.inj h).symm, hne, ha⟩

/-- An error of a block load names the lowest address above 0xFFF, and its last byte lies there (R233). -/
theorem Memory.loadBlock_error_inv {m : Memory} {a n addr : Nat} (h : m.loadBlock a n = .error addr) :
    addr = max a (Config.addrMax + 1) ∧ n ≠ 0 ∧ Config.addrMax + 1 < a + n := by
  have hn : n ≠ 0 := by
    rintro rfl
    cases h
  have ha : Config.addrMax + 1 < a + n := by
    by_contra hin
    rw [Memory.loadBlock_ok m a n (by omega)] at h
    cases h
  rw [Memory.loadBlock_error m a n hn ha] at h
  exact ⟨(Except.error.inj h).symm, hn, ha⟩

theorem drawSprite_error_inv {m : Memory} {p : Display} {x0 y0 n a addr : Nat}
    (h : drawSprite m p x0 y0 n a = .error addr) : m.loadBlock a n = .error addr := by
  cases hl : m.loadBlock a n with
  | ok rows => rw [drawSprite_ok hl] at h; cases h
  | error b => rw [drawSprite_error hl] at h; exact congrArg Except.error (Except.error.inj h)

@[simp] theorem State.setRegsFrom_halt (s : State) (k : Nat) (bs : List Byte) :
    (s.setRegsFrom k bs).halt = s.halt := by
  rw [State.setRegsFrom_eq]

/-! ## Legal records -/

theorem haltLegal_of_running {s : State} (hs : s.halt = none) : haltLegal s := by
  simp only [haltLegal, hs]

section Record

variable {s t : State} {op : Word} {i : Instr}

/-- The record of a block access that passes the end of memory. -/
theorem haltLegal_of_passesMemoryEnd (hf : fetch s = .ok op) (hd : decode op = .ok i)
    (hp : passesMemoryEnd i s) :
    haltLegal (haltedBy .addressOutOfRange (some (encode i)) (.address (max s.i.toNat 0x1000)) s) :=
  ⟨rfl, .inr ⟨op, i, congrArg some (encode_of_decode hd), hf, hd, hp, rfl⟩⟩

/-- The record of a key test on a key number above 15. -/
theorem haltLegal_of_key {x : RegId} (hf : fetch s = .ok op) (hd : decode op = .ok i)
    (hi : i = .skp x ∨ i = .sknp x) (hx : 15 < (s.reg x).toNat) :
    haltLegal (haltedBy .keyIndexOutOfRange (some (encode i)) (.index (s.reg x)) s) := by
  refine ⟨rfl, op, x, congrArg some (encode_of_decode hd), hf, ?_, hx, rfl⟩
  obtain rfl | rfl := hi
  · exact .inl hd
  · exact .inr hd

/-- A fault of an executing instruction has the record R230 to R234 give: each check that fails names its
own cause, and the instruction's encoding is the fetched word. -/
theorem haltLegal_of_exec (hs : s.halt = none) (hf : fetch s = .ok op) (hd : decode op = .ok i)
    (h : exec i s = .next t) : haltLegal t := by
  cases i
  case ret =>
    obtain ⟨_, _, -, rfl⟩ | ⟨hstack, rfl⟩ := execRet_next h
    · exact haltLegal_of_running hs
    · exact ⟨rfl, rfl, hf.trans (congrArg Except.ok (encode_of_decode hd).symm), hstack, rfl⟩
  case ldVxK x =>
    obtain rfl | ⟨_, rfl⟩ := execLdVxK_next h
    · exact haltLegal_of_running hs
    · exact haltLegal_of_running hs
  case skp x =>
    simp only [exec, execSkp] at h
    obtain hk | ⟨hx, rfl⟩ := withKey_next h
    · cases hk
      exact haltLegal_of_running hs
    · exact haltLegal_of_key hf hd (.inl rfl) hx
  case sknp x =>
    simp only [exec, execSknp] at h
    obtain hk | ⟨hx, rfl⟩ := withKey_next h
    · cases hk
      exact haltLegal_of_running hs
    · exact haltLegal_of_key hf hd (.inr rfl) hx
  case drw x y n =>
    obtain ⟨_, -, hk⟩ | ⟨addr, hr, rfl⟩ := orRaise_next h
    · cases hk
      exact haltLegal_of_running hs
    · obtain ⟨rfl, hn, ha⟩ := Memory.loadBlock_error_inv (drawSprite_error_inv hr)
      exact haltLegal_of_passesMemoryEnd hf hd ⟨fun e => hn (by rw [e]; rfl), by omega⟩
  case ldB | storeRegs =>
    obtain ⟨_, -, hk⟩ | ⟨addr, hr, rfl⟩ := orRaise_next h
    · cases hk
      exact haltLegal_of_running hs
    · obtain ⟨rfl, -, ha⟩ := Memory.storeBlock_error_inv hr
      simp only [decimalDigits, List.length_cons, List.length_nil, State.regsUpTo_length] at ha
      exact haltLegal_of_passesMemoryEnd hf hd (by simp only [passesMemoryEnd]; omega)
  case loadRegs =>
    obtain ⟨_, -, hk⟩ | ⟨addr, hr, rfl⟩ := orRaise_next h
    · cases hk
      exact haltLegal_of_running ((s.setRegsFrom_halt 0 _).trans hs)
    · obtain ⟨rfl, -, ha⟩ := Memory.loadBlock_error_inv hr
      exact haltLegal_of_passesMemoryEnd hf hd (by simp only [passesMemoryEnd]; omega)
  all_goals cases h; exact haltLegal_of_running hs

end Record

/-! ## Memory and addresses after an instruction -/

/-- Only Fx33 and Fx55 write memory, and a store that goes through stays inside it. -/
theorem exec_mem_wf {i : Instr} {s t : State} (hm : s.mem.wf) (h : exec i s = .next t) : t.mem.wf := by
  by_cases heq : t.mem = s.mem
  · exact heq ▸ hm
  · obtain ⟨hlisted, -⟩ := onlyTheListedInstructionsWrite i s t h
    obtain ⟨x, rfl | rfl⟩ := hlisted heq
    all_goals
      obtain ⟨m, hr, hk⟩ | ⟨_, -, rfl⟩ := orRaise_next h
      · cases hk
        obtain ⟨rfl, hnil | hin⟩ := Memory.storeBlock_next hr
        · rw [hnil]; exact hm
        · exact Memory.writeBlock_wf hm hin
      · exact hm

/-- A return takes an entry off, and a call fetched below 0xFFF pushes at most 0x1000 (R120). -/
theorem exec_stack_bounded {i : Instr} {s t : State} (hpc : s.pc.toNat + 1 ≤ 0xFFF)
    (hst : ∀ a ∈ s.stack, a.toNat ≤ 0x1000) (h : exec i s = .next t) :
    ∀ a ∈ t.stack, a.toNat ≤ 0x1000 := by
  by_cases heq : t.stack = s.stack
  · exact heq ▸ hst
  · obtain ⟨-, -, -, hlisted, -⟩ := onlyTheListedInstructionsWrite i s t h
    obtain rfl | ⟨nnn, rfl⟩ := hlisted heq
    · obtain ⟨below, top, hstack, rfl⟩ | ⟨-, rfl⟩ := execRet_next h
      · exact fun a ha => hst a (hstack ▸ List.mem_append_left [top] ha)
      · exact hst
    · cases (execCall_eq nnn s).symm.trans h
      intro a ha
      obtain ha | ha := List.mem_append.1 ha
      · exact hst a ha
      · obtain rfl := List.mem_singleton.1 ha
        rw [BitVec.toNat_add]
        have : (2 : Word).toNat = 2 := rfl
        omega

/-- The targets of R28 are at most 0x10FE, that of Bnnn with the greatest operands (R123). -/
theorem exec_pc_bounded {i : Instr} {s t : State} (hs : s.halt = none) (hpc : s.pc.toNat + 1 ≤ 0xFFF)
    (hst : ∀ a ∈ s.stack, a.toNat ≤ 0x1000) (h : exec i s = .next t) : t.pc.toNat ≤ 0x10FE := by
  by_cases ht : t.halt = none
  · have hlisted := everyInstructionSetsPcAsListed.1 i s t hs h ht
    have h2 : (s.pc + 2).toNat = s.pc.toNat + 2 := by bv_omega
    have h4 : (s.pc + 4).toNat = s.pc.toNat + 4 := by bv_omega
    cases i <;> simp only at hlisted
    case ret => exact (hst _ (List.mem_of_getLast? hlisted)).trans (by decide)
    case jp | call | jpV0 => omega
    case seImm | sneImm | seReg | sneReg | skp | sknp | ldVxK => split at hlisted <;> rw [hlisted] <;> omega
    all_goals rw [hlisted]; omega
  · obtain hsame | ⟨kind, info, rfl⟩ := exec_next_halt h
    · exact absurd (hsame.trans hs) ht
    · simp only [haltedBy_pc]
      omega

/-! ## The invariant -/

theorem inv_of_running {s : State} (hm : s.mem.wf) (ha : addressesBounded s) (hs : s.halt = none) : Inv s :=
  ⟨hm, ha, haltLegal_of_running hs⟩

/-- A step of a running state that meets the invariant: a fetch or decode fault has a legal record, and an
instruction that executes was fetched from below 0xFFF. -/
theorem runInstr_inv {s t : State} (hi : Inv s) (hs : s.halt = none) (h : runInstr s = .next t) : Inv t := by
  obtain ⟨hm, ⟨hpc, hst⟩, -⟩ := hi
  obtain ⟨a, hf, hr⟩ | ⟨op, why, hf, hd, hr⟩ | ⟨op, i, hf, hd, hr⟩ := runInstr_cases s
  · cases hr.symm.trans h
    have hend : Config.addrMax < s.pc.toNat + 1 := by
      by_contra hin
      rw [fetch_ok (by omega)] at hf
      cases hf
    rw [fetch_error hend] at hf
    cases hf
    exact ⟨hm, ⟨hpc, hst⟩, rfl, .inl ⟨rfl, hend, rfl⟩⟩
  · cases hr.symm.trans h
    exact ⟨hm, ⟨hpc, hst⟩, rfl, op, why, rfl, hf, hd, rfl⟩
  · have hpc := fetch_next hf
    rw [hr] at h
    exact ⟨exec_mem_wf hm h, ⟨exec_pc_bounded hs hpc hst h, exec_stack_bounded hpc hst h⟩,
      haltLegal_of_exec hs hf hd h⟩

theorem stepEvent_inv {rand : Byte} {s t : State} (hi : Inv s) (h : stepEvent rand s = .next t) : Inv t := by
  by_cases hs : s.halt = none
  · rw [stepEvent_of_running hs] at h
    exact runInstr_inv (s := { s with rand := rand }) hi hs h
  · cases (stepEvent_of_halted hs rand).symm.trans h
    exact hi

/-- Settles O58: memory lists nothing, PC is 0x200, the stack is empty and no record stands in the latch. -/
theorem resetMeetsTheInvariant : Obligations.ResetMeetsTheInvariant :=
  inv_of_running Memory.nil_wf ⟨by decide, by simp [State.reset]⟩ rfl

theorem unlessHalted_inv {s : State} {f : State → State} (hi : Inv s) (hf : s.halt = none → Inv (f s)) :
    Inv (unlessHalted s f) := by
  by_cases hs : s.halt = none
  · rw [unlessHalted_of_running hs]; exact hf hs
  · rwa [unlessHalted_of_halted hs]

theorem loadProgram_inv {s : State} (bytes : List Byte) (hi : Inv s) : Inv (loadProgram bytes s) := by
  refine unlessHalted_inv hi fun hs => ?_
  split
  case isTrue => exact hi
  case isFalse hlen =>
    have ⟨hm, haddr, _⟩ := hi
    have hlen : bytes.length ≤ 0xE00 := Nat.le_of_not_lt hlen
    have hin : 0x200 + bytes.length ≤ 0xFFF + 1 := by omega
    exact inv_of_running (Memory.writeBlock_wf hm hin) haddr hs

theorem setKey_inv {s : State} (index : Nat) (pressed : Bool) (hi : Inv s) : Inv (setKey index pressed s) := by
  have ⟨hm, haddr, _⟩ := hi
  refine unlessHalted_inv hi fun hs => ?_
  split
  · exact inv_of_running hm haddr hs
  · exact hi

theorem tick_inv {s : State} (hi : Inv s) : Inv (tick s) := by
  have ⟨hm, haddr, _⟩ := hi
  exact unlessHalted_inv hi fun hs => inv_of_running hm haddr hs

theorem deliver_inv {e : HostEvent} {s t : State} (hi : Inv s) (h : deliver e s = .next t) : Inv t := by
  cases e with
  | step rand => exact stepEvent_inv hi h
  | reset => cases h; exact resetMeetsTheInvariant
  | loadProgram bytes => cases h; exact loadProgram_inv bytes hi
  | setKey index pressed => cases h; exact setKey_inv index pressed hi
  | tick => cases h; exact tick_inv hi

theorem takeEvent_inv {s : State} (hi : Inv s) : Inv (takeEvent s) := by
  rw [takeEvent_eq]
  exact hi

/-- Settles O59: taking the event out of the schedule touches no field the invariant speaks of, and each
event keeps it. -/
theorem everyStepKeepsTheInvariant : Obligations.EveryStepKeepsTheInvariant :=
  fun _ _ hi h => deliver_inv (takeEvent_inv hi) h

end Sys2Proof.Machine
end

section
/-! PROOFS. The sprite-blit engine and Dxyn (spec 43_display.md R192 to R197). -/

namespace Sys2Proof.Machine

/-! ## A sprite as the list of its targets -/

/-- One 1 bit of a sprite on its target cell (R195). -/
def hitCell (st : Display × Bool) (k : Nat) : Display × Bool := (st.1.toggle k, st.2 || st.1.cell k)

/-- The targets of the 1 bits of sprite row `r`, the most significant bit first (R193). -/
def rowTargets (x0 y0 r : Nat) (row : Byte) : List Nat :=
  ((List.range Config.spriteW).filter fun c => row.getLsbD (7 - c)).map (targetCell x0 y0 r)

/-- The targets of the 1 bits of the sprite rows from row `r` on, in the order of drawing (R196). -/
def spriteTargets (x0 y0 : Nat) : Nat → List Byte → List Nat
  | _, [] => []
  | r, row :: rows => rowTargets x0 y0 r row ++ spriteTargets x0 y0 (r + 1) rows

theorem blitRow_eq (x0 y0 r : Nat) (row : Byte) (st : Display × Bool) :
    blitRow x0 y0 r row st = (rowTargets x0 y0 r row).foldl hitCell st := by
  rw [rowTargets, List.foldl_map, List.foldl_filter]
  rfl

theorem blitRows_eq (x0 y0 r : Nat) (rows : List Byte) (st : Display × Bool) :
    blitRows x0 y0 r rows st = (spriteTargets x0 y0 r rows).foldl hitCell st := by
  induction rows generalizing r st with
  | nil => rfl
  | cons row rows ih => rw [blitRows, ih, blitRow_eq, spriteTargets, List.foldl_append]

theorem mem_rowTargets {x0 y0 r k : Nat} {row : Byte} : k ∈ rowTargets x0 y0 r row ↔
    ∃ c, c < 8 ∧ row.getLsbD (7 - c) = true ∧ k = targetCell x0 y0 r c := by
  simp only [rowTargets, List.mem_map, List.mem_filter, List.mem_range, and_assoc, eq_comm (a := k)]

theorem mem_spriteTargets {x0 y0 r k : Nat} {rows : List Byte} : k ∈ spriteTargets x0 y0 r rows ↔
    ∃ j c, c < 8 ∧ (∃ row, rows[j]? = some row ∧ row.getLsbD (7 - c) = true) ∧
      k = targetCell x0 y0 (r + j) c := by
  induction rows generalizing r with
  | nil => simp [spriteTargets]
  | cons row rows ih =>
    rw [spriteTargets, List.mem_append, mem_rowTargets, ih]
    constructor
    · rintro (⟨c, hc, hbit, hk⟩ | ⟨j, c, hc, hrow, hk⟩)
      · exact ⟨0, c, hc, ⟨row, rfl, hbit⟩, hk⟩
      · exact ⟨j + 1, c, hc, hrow, by rwa [← Nat.add_assoc, Nat.add_right_comm]⟩
    · rintro ⟨_ | j, c, hc, hrow, hk⟩
      · obtain ⟨_, hrow, hbit⟩ := hrow
        cases hrow
        exact .inl ⟨c, hc, hbit, hk⟩
      · exact .inr ⟨j, c, hc, hrow, by rwa [Nat.add_right_comm, Nat.add_assoc]⟩

theorem nodup_rowTargets (x0 y0 r : Nat) (row : Byte) : (rowTargets x0 y0 r row).Nodup := by
  refine (List.nodup_range.filter _).map_on fun c hc c' hc' h => ?_
  have hc : c < 8 := List.mem_range.1 (List.mem_filter.1 hc).1
  have hc' : c' < 8 := List.mem_range.1 (List.mem_filter.1 hc').1
  obtain ⟨hcol, -⟩ := (targetCell_eq_iff ..).1 h
  omega

/-- Up to 32 rows no two bits of a sprite have the same target: within a row the columns differ, and the rows
differ from each other (R194). -/
theorem nodup_spriteTargets (x0 y0 r : Nat) {rows : List Byte} (hlen : rows.length ≤ 32) :
    (spriteTargets x0 y0 r rows).Nodup := by
  induction rows generalizing r with
  | nil => exact .nil
  | cons row rows ih =>
    rw [List.length_cons] at hlen
    refine (nodup_rowTargets x0 y0 r row).append (ih (r + 1) (by omega)) fun k hk hk' => ?_
    obtain ⟨c, -, -, rfl⟩ := mem_rowTargets.1 hk
    obtain ⟨j, c', -, ⟨_, hrow, -⟩, heq⟩ := mem_spriteTargets.1 hk'
    obtain ⟨hj, -⟩ := List.getElem?_eq_some_iff.1 hrow
    obtain ⟨-, hline⟩ := (targetCell_eq_iff ..).1 heq
    omega

theorem spriteTargets_lt {x0 y0 r : Nat} {rows : List Byte} : ∀ k ∈ spriteTargets x0 y0 r rows, k < 2048 := by
  intro k hk
  obtain ⟨j, c, -, -, rfl⟩ := mem_spriteTargets.1 hk
  exact targetCell_lt ..

/-! ## Hitting different cells -/

section Hits

variable {ks : List Nat} (hlt : ∀ k ∈ ks, k < 2048) (hnd : ks.Nodup)
include hlt hnd

/-- Hitting different cells toggles exactly those. -/
theorem cell_foldl_hitCell (p : Display) (b : Bool) {j : Nat} (hj : j < 2048) :
    (ks.foldl hitCell (p, b)).1.cell j = (p.cell j ^^ decide (j ∈ ks)) := by
  induction ks generalizing p b with
  | nil => simp
  | cons k ks ih =>
    obtain ⟨hk, hnd⟩ := List.nodup_cons.1 hnd
    rw [List.foldl_cons, hitCell, ih (fun k' hk' => hlt k' (.tail k hk')) hnd,
      Display.cell_toggle p hj (hlt k (.head ks)), Bool.xor_assoc]
    congr 1
    by_cases h : j = k
    · subst h
      simp [hk]
    · simp [h]

/-- Hitting different cells records whether one of them was set before the first hit. -/
theorem collided_foldl_hitCell (p : Display) (b : Bool) :
    (ks.foldl hitCell (p, b)).2 = true ↔ b = true ∨ ∃ k ∈ ks, p.cell k = true := by
  induction ks generalizing p b with
  | nil => simp
  | cons k ks ih =>
    obtain ⟨hk, hnd⟩ := List.nodup_cons.1 hnd
    have hsame : ∀ k' ∈ ks, (p.toggle k).cell k' = p.cell k' := fun k' hk' => by
      rw [Display.cell_toggle p (hlt k' (.tail k hk')) (hlt k (.head ks))]
      simp [ne_of_mem_of_not_mem hk' hk]
    have hlater : (∃ k' ∈ ks, (p.toggle k).cell k' = true) ↔ ∃ k' ∈ ks, p.cell k' = true :=
      exists_congr fun k' => and_congr_right fun hk' => by rw [hsame k' hk']
    rw [List.foldl_cons, hitCell, ih (fun k' hk' => hlt k' (.tail k hk')) hnd, hlater]
    simp [or_assoc]

end Hits

/-! ## `DrawSprite` -/

/-- The targets of the 1 bits of the `h` sprite rows at `addr`. -/
def targetsIn (m : Memory) (x0 y0 h addr : Nat) : List Nat :=
  spriteTargets x0 y0 0 ((List.range h).map fun k => m.read (addr + k))

theorem mem_targetsIn {m : Memory} {x0 y0 h addr k : Nat} :
    k ∈ targetsIn m x0 y0 h addr ↔ ∃ r c, r < h ∧ c < 8 ∧
      (m.read (addr + r)).getLsbD (7 - c) = true ∧ k = (x0 + c) % 64 + 64 * ((y0 + r) % 32) := by
  rw [targetsIn, mem_spriteTargets]
  refine exists_congr fun r => exists_congr fun c => ?_
  by_cases hr : r < h
  · simp [hr, targetCell]
  · simp [hr]

theorem targetsIn_lt {m : Memory} {x0 y0 h addr : Nat} : ∀ k ∈ targetsIn m x0 y0 h addr, k < 2048 :=
  spriteTargets_lt

theorem exists_mem_targetsIn {m : Memory} {x0 y0 h addr : Nat} {P : Nat → Prop} :
    (∃ k ∈ targetsIn m x0 y0 h addr, P k) ↔ ∃ r c, r < h ∧ c < 8 ∧
      (m.read (addr + r)).getLsbD (7 - c) = true ∧ P ((x0 + c) % 64 + 64 * ((y0 + r) % 32)) := by
  simp only [mem_targetsIn]
  constructor
  · rintro ⟨_, ⟨r, c, hr, hc, hbit, rfl⟩, hP⟩
    exact ⟨r, c, hr, hc, hbit, hP⟩
  · rintro ⟨r, c, hr, hc, hbit, hP⟩
    exact ⟨_, ⟨r, c, hr, hc, hbit, rfl⟩, hP⟩

/-- Everything a drawing that goes through does: it toggles exactly its targets, and it collided exactly when
one of them was set before. -/
theorem drawSprite_next {m : Memory} {p q : Display} {x0 y0 h addr : Nat} {hit : Bool} (hh : h ≤ 15)
    (hd : drawSprite m p x0 y0 h addr = .ok (q, hit)) :
    (∀ k, k < 2048 → q.cell k = (p.cell k ^^ decide (k ∈ targetsIn m x0 y0 h addr))) ∧
    (hit = true ↔ ∃ k ∈ targetsIn m x0 y0 h addr, p.cell k = true) := by
  cases hr : m.loadBlock addr h with
  | error a => rw [drawSprite_error hr] at hd; cases hd
  | ok rows =>
    rw [drawSprite_ok hr, blitRows_eq, Memory.loadBlock_next hr] at hd
    have hnd : (targetsIn m x0 y0 h addr).Nodup := nodup_spriteTargets x0 y0 0 (by simp; omega)
    have hres : (targetsIn m x0 y0 h addr).foldl hitCell (p, false) = (q, hit) := Except.ok.inj hd
    have hcells := fun k => cell_foldl_hitCell targetsIn_lt hnd p false (j := k)
    have hhit := collided_foldl_hitCell targetsIn_lt hnd p false
    rw [hres] at hcells hhit
    exact ⟨hcells, by simpa using hhit⟩

/-- Whether a drawing goes through does not depend on the display. -/
theorem drawSprite_again {m : Memory} {p : Display} {x0 y0 h addr : Nat} {r : Display × Bool}
    (hd : drawSprite m p x0 y0 h addr = .ok r) (q : Display) : ∃ r', drawSprite m q x0 y0 h addr = .ok r' := by
  cases hl : m.loadBlock addr h with
  | error a => rw [drawSprite_error hl] at hd; cases hd
  | ok rows => exact ⟨_, drawSprite_ok hl q x0 y0⟩

/-- Settles O45: toggling inverts a cell, so the cells that changed are the targets; the targets are read off
the rows. -/
theorem spriteTogglesExactlyItsTargets : Obligations.SpriteTogglesExactlyItsTargets := by
  intro m p q x0 y0 h addr hit hh hd
  obtain ⟨hcells, hhit⟩ := drawSprite_next hh hd
  refine ⟨fun k hk => ?_, hhit.trans exists_mem_targetsIn⟩
  rw [hcells k hk, ← mem_targetsIn]
  by_cases hmem : k ∈ targetsIn m x0 y0 h addr <;> simp [hmem]

/-- Settles O46: the second drawing has the same targets, so it inverts the inverted cells back and meets the
targets inverted. -/
theorem drawingTwiceRestoresTheDisplay : Obligations.DrawingTwiceRestoresTheDisplay := by
  intro m p q x0 y0 h addr hit hh hd
  obtain ⟨hcells, -⟩ := drawSprite_next hh hd
  obtain ⟨⟨p', hit2⟩, hd2⟩ := drawSprite_again hd q
  obtain ⟨hcells2, hhit2⟩ := drawSprite_next hh hd2
  have hp : p' = p := Display.ext_cell fun k hk => by
    rw [hcells2 k hk, hcells k hk, Bool.xor_assoc, Bool.xor_self, Bool.xor_false]
  subst hp
  have hinv : ∀ k ∈ targetsIn m x0 y0 h addr, (q.cell k = true ↔ p'.cell k = false) := fun k hk => by
    rw [hcells k (targetsIn_lt k hk)]
    simp [hk]
  exact ⟨hit2, hd2, (hhit2.trans (exists_congr fun k => and_congr_right (hinv k))).trans exists_mem_targetsIn⟩

/-! ## Dxyn -/

/-- A block load reads nothing or stays inside memory. -/
theorem Memory.loadBlock_answers (m : Memory) {a n : Nat} (h : n = 0 ∨ a + n ≤ Config.addrMax + 1) :
    ∃ bs, m.loadBlock a n = .ok bs := by
  obtain rfl | h := h
  · exact ⟨[], rfl⟩
  · exact ⟨_, Memory.loadBlock_ok m a n h⟩

theorem execDrw_ok {x y : RegId} {n : Nibble} {s : State} {r : Display × Bool}
    (hd : drawSprite s.mem s.pix (s.reg x).toNat (s.reg y).toNat n.toNat s.i.toNat = .ok r) :
    execDrw x y n s = .next ({ s with pix := r.1 }.setFlag r.2).advance := by
  rw [execDrw, hd, orRaise_ok]

/-- Settles O47: the rows can be read, so the answer is the state with the display and the flag replaced. -/
theorem drawWritesDisplayAndFlag : Obligations.DrawWritesDisplayAndFlag := by
  intro x y n s hn
  have hin : n.toNat = 0 ∨ s.i.toNat + n.toNat ≤ Config.addrMax + 1 := hn.imp_left fun e => by rw [e]; rfl
  obtain ⟨rows, hrows⟩ := Memory.loadBlock_answers s.mem hin
  have hd := drawSprite_ok hrows s.pix (s.reg x).toNat (s.reg y).toNat
  refine ⟨_, _, _, execDrw_ok hd, hd, rfl, State.setFlag_reg_VF _ _, rfl, fun r hr => ?_, fun _ => rfl, rfl, rfl,
    ⟨rfl, rfl⟩, rfl, rfl, rfl, rfl, rfl⟩
  exact State.reg_setReg_other _ _ (List.ne_of_not_mem_cons hr)

end Sys2Proof.Machine
end

section
/-! PROOFS. Memory: the canonical form determines its data, and what Fx33, Fx55 and Fx65 store and load (spec
20_memory.md R60, R74, 42_index_memory.md R173 to R176). -/

namespace Sys2Proof.Machine

/-! ## The canonical form -/

theorem Memory.read_of_forall_ne {m : Memory} {a : Nat} (h : ∀ e ∈ m, e.1 ≠ a) :
    m.read a = Memory.resetByte a := by
  induction m with
  | nil => rfl
  | cons e rest ih => exact (if_neg (h e (.head rest))).trans (ih fun e' he' => h e' (.tail e he'))

/-- Where the addresses rise, an entry is what its address reads as. -/
theorem Memory.read_of_mem {m : Memory} (hm : m.Pairwise fun p q => p.1 < q.1) {e : Host.Cell} (he : e ∈ m) :
    m.read e.1 = e.2 := by
  induction m with
  | nil => cases he
  | cons p rest ih =>
    obtain ⟨hp, hrest⟩ := List.pairwise_cons.1 hm
    obtain rfl | he := List.mem_cons.1 he
    · exact if_pos rfl
    · exact (if_neg (hp e he).ne).trans (ih hrest he)

/-- A canonical memory lists exactly the bytes that differ from the reset contents. -/
theorem Memory.mem_iff_read {m : Memory} (hm : m.wf) (e : Host.Cell) :
    e ∈ m ↔ m.read e.1 = e.2 ∧ e.2 ≠ Memory.resetByte e.1 := by
  obtain ⟨hsorted, hentries⟩ := hm
  refine ⟨fun he => ⟨Memory.read_of_mem hsorted he, (hentries e he).2⟩, fun ⟨hread, hne⟩ => ?_⟩
  by_cases hlisted : ∃ e' ∈ m, e'.1 = e.1
  · obtain ⟨e', he', haddr⟩ := hlisted
    have hbyte : e'.2 = e.2 := by rw [← Memory.read_of_mem hsorted he', haddr, hread]
    exact Prod.ext haddr hbyte ▸ he'
  · push Not at hlisted
    exact absurd (hread.symm.trans (Memory.read_of_forall_ne hlisted)) hne

/-- Settles O43: memories that read alike list the same entries, and the rising order leaves one list for
them. -/
theorem canonicalMemoriesThatReadAlikeAreEqual : Obligations.CanonicalMemoriesThatReadAlikeAreEqual := by
  intro m n hm hn hread
  have : Std.Irrefl fun p q : Host.Cell => p.1 < q.1 := ⟨fun p => Nat.lt_irrefl p.1⟩
  have : Std.Antisymm fun p q : Host.Cell => p.1 < q.1 := ⟨fun _ _ h h' => absurd h' (Nat.lt_asymm h)⟩
  refine hm.1.eq_of_mem_iff hn.1 fun e => ?_
  rw [Memory.mem_iff_read hm, Memory.mem_iff_read hn, hread]

/-! ## Storing a block -/

/-- Byte `k` of a block write stands at its place in the block. -/
theorem Memory.read_writeBlock_getElem (m : Memory) (a : Nat) (bs : List Byte) {k : Nat} (hk : k < bs.length) :
    (m.writeBlock a bs).read (a + k) = bs[k] := by
  rw [Memory.read_writeBlock, dif_pos (by omega)]
  congr 1
  omega

theorem Memory.read_writeBlock_outside (m : Memory) {a b : Nat} {bs : List Byte}
    (h : b < a ∨ a + bs.length ≤ b) :
    (m.writeBlock a bs).read b = m.read b := by
  rw [Memory.read_writeBlock, dif_neg (by omega)]

theorem execLdB_ok {x : RegId} {s : State} (h : s.i.toNat + 2 ≤ 0xFFF) : execLdB x s =
    .next { s with mem := s.mem.writeBlock s.i.toNat (decimalDigits (s.reg x)) }.advance := by
  have hin : s.i.toNat + 3 ≤ 0xFFF + 1 := by omega
  rw [execLdB, Memory.storeBlock_ok _ _ _ hin, orRaise_ok]

theorem execStoreRegs_ok {x : RegId} {s : State} (h : s.i.toNat + x.toNat ≤ 0xFFF) : execStoreRegs x s =
    .next { s with mem := s.mem.writeBlock s.i.toNat (s.regsUpTo x) }.advance := by
  have hin : s.i.toNat + (s.regsUpTo x).length ≤ 0xFFF + 1 := by
    rw [State.regsUpTo_length]
    omega
  rw [execStoreRegs, Memory.storeBlock_ok _ _ _ hin, orRaise_ok]

theorem execLoadRegs_ok {x : RegId} {s : State} (h : s.i.toNat + x.toNat ≤ 0xFFF) : execLoadRegs x s =
    .next (s.setRegsFrom 0 ((List.range (x.toNat + 1)).map fun k => s.mem.read (s.i.toNat + k))).advance := by
  have hin : s.i.toNat + (x.toNat + 1) ≤ 0xFFF + 1 := by omega
  rw [execLoadRegs, Memory.loadBlock_ok _ _ _ hin, orRaise_ok]

/-- The block of Fx55 holds each register at its own number (R174). -/
theorem read_storedRegs (s : State) (x : RegId) {r : RegId} (hr : r.toNat ≤ x.toNat) :
    (s.mem.writeBlock s.i.toNat (s.regsUpTo x)).read (s.i.toNat + r.toNat) = s.reg r := by
  rw [Memory.read_writeBlock_getElem _ _ _ (by rw [State.regsUpTo_length]; omega), State.getElem_regsUpTo,
    BitVec.ofNat_toNat, BitVec.setWidth_eq]

/-- The three digits of Fx33, each small enough for its byte (R173). -/
theorem read_storedDigits (m : Memory) (a : Nat) (v : Byte) :
    ((m.writeBlock a (decimalDigits v)).read a).toNat = v.toNat / 100 ∧
    ((m.writeBlock a (decimalDigits v)).read (a + 1)).toNat = v.toNat / 10 % 10 ∧
    ((m.writeBlock a (decimalDigits v)).read (a + 2)).toNat = v.toNat % 10 := by
  have hv : v.toNat < 256 := v.isLt
  have hplace := fun k => m.read_writeBlock_getElem a (decimalDigits v) (k := k)
  have hbyte : ∀ n, n < 256 → (BitVec.ofNat 8 n).toNat = n := fun n hn =>
    (BitVec.toNat_ofNat n 8).trans (Nat.mod_eq_of_lt hn)
  exact ⟨(congrArg _ (hplace 0 (by simp [decimalDigits]))).trans (hbyte _ (by omega)),
    (congrArg _ (hplace 1 (by simp [decimalDigits]))).trans (hbyte _ (by omega)),
    (congrArg _ (hplace 2 (by simp [decimalDigits]))).trans (hbyte _ (by omega))⟩

/-- Settles O37: a byte is the sum of its decimal digits at their weights. -/
theorem decimalDigitsAreStored : Obligations.DecimalDigitsAreStored := by
  intro x s h
  obtain ⟨hhundreds, htens, hunits⟩ := read_storedDigits s.mem s.i.toNat (s.reg x)
  refine ⟨_, execLdB_ok h, ?_, ?_, ?_, fun a ha => Memory.read_writeBlock_outside _ ha, rfl, rfl, fun _ _ => rfl,
    fun _ => rfl, rfl, ⟨rfl, rfl⟩, rfl, rfl, rfl, rfl, rfl⟩
  all_goals
    simp only [State.advance_mem, hhundreds, htens, hunits]
    omega

/-- Settles O38: byte `r` of the block is Vr, and the block ends at I + x. -/
theorem registerBlockIsStored : Obligations.RegisterBlockIsStored := by
  intro x s h
  refine ⟨_, execStoreRegs_ok h, fun r hr => read_storedRegs s x hr, fun a ha => ?_, rfl, rfl, fun _ _ => rfl,
    fun _ => rfl, rfl, ⟨rfl, rfl⟩, rfl, rfl, rfl, rfl, rfl⟩
  exact Memory.read_writeBlock_outside _ (by rwa [State.regsUpTo_length])

/-! ## Loading a block -/

/-- Fx65 gives each register up to Vx the byte at its own number (R175). -/
theorem reg_loadedRegs (s : State) {x : RegId} (r : RegId) :
    (s.setRegsFrom 0 ((List.range (x.toNat + 1)).map fun k => s.mem.read (s.i.toNat + k))).reg r =
      if r.toNat ≤ x.toNat then s.mem.read (s.i.toNat + r.toNat) else s.reg r := by
  have hx : x.toNat < 16 := x.isLt
  rw [State.reg_setRegsFrom _ _ _ (by simp; omega)]
  by_cases hr : r.toNat ≤ x.toNat
  · rw [if_pos hr, dif_pos (by simp; omega)]
    simp
  · rw [if_neg hr, dif_neg (by simp; omega)]

/-- Settles O39: the registers up to Vx get the bytes of the block, and no field but the registers and PC is
replaced. -/
theorem registerBlockIsLoaded : Obligations.RegisterBlockIsLoaded := by
  intro x s h
  refine ⟨_, execLoadRegs_ok h, fun r hr => ?_, fun r hr => ?_, ?_, ?_⟩
  · rw [State.advance_reg, reg_loadedRegs, if_pos hr]
  · rw [State.advance_reg, reg_loadedRegs, if_neg (Nat.not_le.2 hr)]
  all_goals rw [State.setRegsFrom_eq]
  · rfl
  · exact ⟨fun _ => rfl, fun _ => rfl, rfl, rfl, ⟨rfl, rfl⟩, rfl, rfl, rfl, rfl, rfl⟩

/-- Settles O40: byte `r` of the block is what Fx55 stored there, the old Vr. -/
theorem storeThenLoadRestoresRegisters : Obligations.StoreThenLoadRestoresRegisters := by
  intro x s t u h hst hmem hi
  cases (execStoreRegs_ok h).symm.trans hst
  obtain ⟨w, hw, hloaded, -⟩ := registerBlockIsLoaded x u (hi ▸ h)
  refine ⟨w, hw, fun r hr => ?_⟩
  rw [hloaded r hr, hmem, hi]
  exact read_storedRegs s x hr

/-! ## Fetching what was stored -/

/-- Settles O42: the two bytes fetched are neighbours in the block that was stored. -/
theorem fetchSeesStoredRegisters : Obligations.FetchSeesStoredRegisters := by
  refine ⟨fun x r s t u h hst hr hmem hpc => ?_, fun x s t u h hst hmem => ?_⟩
  · cases (execStoreRegs_ok h).symm.trans hst
    have hx : x.toNat < 16 := x.isLt
    have hr1 : (r + 1).toNat = r.toNat + 1 := by bv_omega
    rw [fetch_ok (show u.pc.toNat + 1 ≤ 0xFFF by omega), hmem, hpc, Nat.add_assoc, ← hr1]
    congr 2
    · exact read_storedRegs s x (by omega)
    · exact read_storedRegs s x (by omega)
  · cases (execLdB_ok h).symm.trans hst
    obtain ⟨hhundreds, htens, hunits⟩ := read_storedDigits s.mem s.i.toNat (s.reg x)
    refine ⟨fun hpc => ?_, fun hpc => ?_⟩
    all_goals
      refine ⟨_, fetch_ok (show u.pc.toNat + 1 ≤ 0xFFF by omega), ?_⟩
      rw [joinBytes_toNat, hmem, hpc]
      simp only [State.advance_mem, hhundreds, htens, hunits]

/-! ## Block accesses that pass 0xFFF -/

/-- Settles O41: each is a block access of at least one byte whose last address lies above 0xFFF, which
answers the lowest such address. -/
theorem blockAccessAboveMemoryFaults : Obligations.BlockAccessAboveMemoryFaults := by
  intro x y n s
  refine ⟨fun h => ?_, fun h => ?_, fun h => ?_, fun hn h => ?_⟩
  · have hout : 0xFFF + 1 < s.i.toNat + 3 := by omega
    rw [exec, execLdB, Memory.storeBlock_error _ _ (decimalDigits _) (List.cons_ne_nil _ _) hout, orRaise_error]
  · have hout : 0xFFF + 1 < s.i.toNat + (s.regsUpTo x).length := by
      rw [State.regsUpTo_length]
      omega
    have hne : s.regsUpTo x ≠ [] := List.ne_nil_of_length_eq_add_one (s.regsUpTo_length x)
    rw [exec, execStoreRegs, Memory.storeBlock_error _ _ _ hne hout, orRaise_error]
  · have hout : 0xFFF + 1 < s.i.toNat + (x.toNat + 1) := by omega
    rw [exec, execLoadRegs, Memory.loadBlock_error _ _ _ (Nat.succ_ne_zero _) hout, orRaise_error]
  · have hn : n.toNat ≠ 0 := fun e => hn (BitVec.eq_of_toNat_eq e)
    have hout : 0xFFF + 1 < s.i.toNat + n.toNat := by omega
    rw [exec, execDrw, drawSprite_error (Memory.loadBlock_error _ _ _ hn hout), orRaise_error]

end Sys2Proof.Machine
end

section
/-! PROOFS. Register arithmetic and logic, the return, the indexed jump, the font address and the keys (spec
40_flow.md, 41_load_alu.md, 42_index_memory.md, 44_keypad_timers.md). -/

namespace Sys2Proof.Machine

/-! ## Return and indexed jump -/

/-- Settles O21: a non-empty stack is popped into PC, and an empty one is the fault of R232. -/
theorem returnPopsThePc : Obligations.ReturnPopsThePc :=
  ⟨fun _ _ _ h => ⟨_, execRet_concat h, rfl, rfl, fun _ _ => rfl, fun _ => rfl, fun _ => rfl, rfl,
    ⟨rfl, rfl⟩, rfl, rfl, rfl, rfl, rfl⟩,
   fun _ h => execRet_nil h⟩

/-- Settles O22: the return address is the last entry of the stack the call leaves. -/
theorem returnResumesBehindTheCall : Obligations.ReturnResumesBehindTheCall := by
  intro nnn s t u hcall hstack
  cases (execCall_eq nnn s).symm.trans hcall
  exact ⟨_, execRet_concat hstack, rfl, rfl⟩

/-- Settles O23: both operands are widened before they are added, and the sum fits 16 bits. -/
theorem indexedJumpAddsV0 : Obligations.IndexedJumpAddsV0 :=
  fun nnn s => ⟨_, rfl, zext16_add_zext16_toNat nnn (s.reg 0), onlyPc_setPc s _⟩

/-! ## One result register -/

/-- Settles O28: each writes the bitwise operation of the two bytes to Vx. -/
theorem logicIsBitwise : Obligations.LogicIsBitwise := by
  intro x y s
  obtain ⟨t, ht, hor, hframe⟩ := writes_register (x := x) (r := exec (.orReg x y) s) rfl
  obtain ⟨u, hu, hand, hframe'⟩ := writes_register (x := x) (r := exec (.andReg x y) s) rfl
  obtain ⟨w, hw, hxor, hframe''⟩ := writes_register (x := x) (r := exec (.xorReg x y) s) rfl
  exact ⟨⟨t, ht, hframe, fun _ => hor ▸ BitVec.getLsbD_or⟩, ⟨u, hu, hframe', fun _ => hand ▸ BitVec.getLsbD_and⟩,
    ⟨w, hw, hframe'', fun _ => hxor ▸ BitVec.getLsbD_xor⟩⟩

/-- Settles O29: the one byte written is the wrapped sum, and no flag is written after it. -/
theorem addRegistersSetsNoCarry : Obligations.AddRegistersSetsNoCarry := by
  intro x y s
  obtain ⟨t, ht, hx, hframe⟩ := writes_register (x := x) (r := exec (.addReg x y) s) rfl
  exact ⟨t, ht, hx ▸ add8_toNat (s.reg x) (s.reg y), hframe⟩

/-- Settles O33: the byte written is the conjunction, which has no bit where the mask has none. -/
theorem randomIsMasked : Obligations.RandomIsMasked := by
  rintro x nn _ s rfl
  obtain ⟨t, ht, hx, hframe⟩ := writes_register (x := x) (r := exec (.rnd x nn) s) rfl
  refine ⟨t, ht, hx, ?_, hframe⟩
  rw [hx, BitVec.and_assoc, BitVec.and_not_self]
  exact BitVec.and_zero

/-! ## A result register and the flag -/

/-- A meaning that writes `b` to Vx and then the flag `c` leaves `c` in VF, `b` in Vx unless Vx is VF, and
changes nothing but the two and PC (R152). -/
theorem writes_register_then_flag {x : RegId} {b : Byte} {c : Bool} {s : State} {r : Result}
    (hr : r = .next (s.setRegThenFlag x b c).advance) :
    ∃ t, r = .next t ∧ t.reg 0xF = flagByte c ∧ (x ≠ 0xF → t.reg x = b) ∧ WritesOnly [x, 0xF] s t := by
  refine ⟨_, hr, State.setFlag_reg_VF _ c, fun hx => ?_, rfl, fun r hr => ?_, fun _ => rfl, fun _ => rfl, rfl,
    rfl, ⟨rfl, rfl⟩, rfl, rfl, rfl, rfl, rfl⟩
  · exact (State.reg_setReg_other _ _ hx).trans (s.reg_setReg_same x b)
  · obtain ⟨hx, hF⟩ : r ≠ x ∧ r ≠ 0xF := by simpa using hr
    exact (State.reg_setReg_other _ _ hF).trans (s.reg_setReg_other b hx)

/-- A difference of bytes is kept modulo 256 (R147, R149). -/
theorem trunc8_exactDiff_toNat (a b : Byte) :
    (trunc8 (exactDiff a b)).toNat = (a.toNat + 256 - b.toNat) % 256 := by
  have hb : b.toNat < 256 := b.isLt
  rw [trunc8, exactDiff, BitVec.toNat_ofInt]
  omega

theorem flagByte_decide (p : Prop) [Decidable p] : flagByte (decide p) = if p then 1 else 0 := by
  simp [flagByte]

/-- Settles O30: the exact difference is positive exactly when Vx is the greater. -/
theorem subtractFlagsGreater : Obligations.SubtractFlagsGreater := by
  intro x y s
  obtain ⟨t, ht, hF, hx, hframe⟩ := writes_register_then_flag (x := x) (r := exec (.subReg x y) s) rfl
  refine ⟨t, ht, ?_, fun h => hx h ▸ trunc8_exactDiff_toNat (s.reg x) (s.reg y), hframe⟩
  have hflag : exactDiff (s.reg x) (s.reg y) > 0 ↔ (s.reg x).toNat > (s.reg y).toNat := by
    rw [exactDiff]
    omega
  rw [hF, isPositive, flagByte_decide]
  simp only [hflag]

/-- Settles O31: the exact difference is negative exactly when Vy is the smaller. -/
theorem reverseSubtractFlagsBorrow : Obligations.ReverseSubtractFlagsBorrow := by
  intro x y s
  obtain ⟨t, ht, hF, hx, hframe⟩ := writes_register_then_flag (x := x) (r := exec (.subnReg x y) s) rfl
  refine ⟨t, ht, ?_, fun h => hx h ▸ trunc8_exactDiff_toNat (s.reg y) (s.reg x), hframe⟩
  have hflag : exactDiff (s.reg y) (s.reg x) < 0 ↔ (s.reg y).toNat < (s.reg x).toNat := by
    rw [exactDiff]
    omega
  rw [hF, isNegative, flagByte_decide]
  simp only [hflag]

theorem shiftRight1_toNat (a : Byte) : (shiftRight1 a).toNat = a.toNat / 2 := by
  rw [shiftRight1, BitVec.toNat_ushiftRight, Nat.shiftRight_eq_div_pow]

theorem shiftLeft1_toNat (a : Byte) : (shiftLeft1 a).toNat = a.toNat * 2 % 256 := by
  rw [shiftLeft1, BitVec.toNat_shiftLeft, Nat.shiftLeft_eq]

theorem flagByte_toNat (c : Bool) : (flagByte c).toNat = c.toNat := by
  cases c <;> rfl

theorem flagByte_bit0_toNat (a : Byte) : (flagByte (bit0 a)).toNat = a.toNat % 2 := by
  rw [flagByte_toNat, bit0, BitVec.getLsbD, Nat.toNat_testBit, Nat.pow_zero, Nat.div_one]

/-- Above bit 7 a byte has no further bit. -/
theorem flagByte_bit7_toNat (a : Byte) : (flagByte (bit7 a)).toNat = a.toNat / 128 := by
  have ha : a.toNat < 256 := a.isLt
  rw [flagByte_toNat, bit7, BitVec.getLsbD, Nat.toNat_testBit]
  omega

/-- Settles O32: one bit goes out of Vx into VF, bit 0 to the right and bit 7 to the left. -/
theorem shiftsMoveVxByOne : Obligations.ShiftsMoveVxByOne := by
  intro x y s
  constructor
  · obtain ⟨t, ht, hF, hx, hframe⟩ := writes_register_then_flag (x := x) (r := exec (.shr x y) s) rfl
    exact ⟨t, ht, hF ▸ flagByte_bit0_toNat (s.reg x), fun h => hx h ▸ shiftRight1_toNat (s.reg x), hframe⟩
  · obtain ⟨t, ht, hF, hx, hframe⟩ := writes_register_then_flag (x := x) (r := exec (.shl x y) s) rfl
    exact ⟨t, ht, hF ▸ flagByte_bit7_toNat (s.reg x), fun h => hx h ▸ shiftLeft1_toNat (s.reg x), hframe⟩

/-! ## The font address -/

/-- Settles O36: five times a byte fits 16 bits. -/
theorem fontAddressIsFiveTimesVx : Obligations.FontAddressIsFiveTimesVx := by
  intro x s
  refine writes_index rfl ((BitVec.toNat_ofNat _ 16).trans (Nat.mod_eq_of_lt ?_))
  have hx : (s.reg x).toNat < 256 := (s.reg x).isLt
  rw [Config.glyphBytes]
  omega

/-! ## Keys -/

/-- Settles O48: both are the key test followed by a skip, on the flag or on its opposite. -/
theorem keySkipsTestTheFlag : Obligations.KeySkipsTestTheFlag := by
  intro x s
  simp only [exec, execSkp, execSknp]
  refine ⟨fun hx => ⟨?_, ?_⟩, fun hx => ⟨withKey_error hx _, withKey_error hx _⟩⟩
  · exact ⟨_, withKey_ok hx _, s.skipIf_pc _, onlyPc_skipIf s _⟩
  · exact ⟨_, withKey_ok hx _, s.skipIf_not_pc _, onlyPc_skipIf s _⟩

/-- In a scan of the keys from 0 on, the last one down is the choice (R212, D13). -/
theorem foldl_range_keyDown {s : State} {n k : Nat} (hk : k < n) (hdown : s.keyDown k = true)
    (habove : ∀ j, k < j → j < n → s.keyDown j = false) :
    (List.range n).foldl (fun found k => if s.keyDown k then some k else found) none = some k := by
  induction n with
  | zero => omega
  | succ n ih =>
    rw [List.range_succ, List.foldl_append, List.foldl_cons, List.foldl_nil]
    obtain rfl | hlt := Nat.eq_or_lt_of_le (Nat.le_of_lt_succ hk)
    · exact if_pos hdown
    · rw [if_neg (by simp [habove n hlt (Nat.lt_succ_self n)])]
      exact ih hlt fun j hj hjn => habove j hj (Nat.lt_succ_of_lt hjn)

/-- Settles O49: the scan chooses the greatest key that is down, a number below 16 which fits its byte, and it
chooses none when none is down. -/
theorem waitForKeyTakesTheGreatestKey : Obligations.WaitForKeyTakesTheGreatestKey := by
  refine fun x s => ⟨fun k hk hdown habove => ?_, fun hup => ?_⟩
  · have hscan : s.lastKeyDown = some k := foldl_range_keyDown hk hdown habove
    obtain ⟨t, ht, hx, hframe⟩ := writes_register (execLdVxK_down (x := x) hscan)
    refine ⟨t, ht, ?_, hframe⟩
    rw [hx, BitVec.toNat_ofNat, Nat.mod_eq_of_lt (by omega)]
  · exact execLdVxK_up (s.lastKeyDown_eq_none_iff.2 fun ⟨k, hk, hdown⟩ => by simp [hup k hk] at hdown)

end Sys2Proof.Machine
end

section
/-! PROOFS. Reset, the step, the host's events and the outputs (spec 10_state.md R37, 60_exceptions.md R235 to
R256, 70_reset_and_hazards.md R270, R271). -/

namespace Sys2Proof.Machine

/-! ## Reset -/

/-- Settles O6: memory lists nothing after reset, so it reads as the font and as zero behind it. -/
theorem resetLeavesTheListedValues : Obligations.ResetLeavesTheListedValues := by
  have hlen : Config.font.length = 80 := rfl
  refine ⟨fun k hk => ?_, fun a ha _ => ?_, fun k _ => Display.cell_clear k, fun r => ?_, rfl, rfl, rfl,
    fun k hk => ?_, rfl, rfl, rfl⟩
  · have hk : k < Config.font.length := hlen ▸ hk
    exact (List.getElem?_eq_getElem hk).trans (congrArg some (List.getD_eq_getElem _ 0 hk).symm)
  · exact List.getD_eq_default _ 0 (hlen ▸ ha)
  · exact Vector.getElem_replicate _
  · simp [State.keyDown, State.reset, hk]

/-- Settles O7: the event sets every field but the model's own three, in any state. -/
theorem resetEventGivesTheResetState : Obligations.ResetEventGivesTheResetState :=
  fun _ => ⟨_, rfl, rfl⟩

/-! ## The step -/

theorem runInstr_of_fetch_error {s : State} {a : Nat} (hf : fetch s = .error a) :
    runInstr s = .next (haltedBy .addressOutOfRange none (.address a) s) := by
  simp only [runInstr, hf, raise_eq]

theorem runInstr_of_decode_error {s : State} {op : Word} {why : IllegalOpcode} (hf : fetch s = .ok op)
    (hd : decode op = .error why) : runInstr s = .next (haltedBy .invalidOpcode (some op) .none s) := by
  simp only [runInstr, hf, hd, raise_eq]

theorem runInstr_of_decode {s : State} {op : Word} {i : Instr} (hf : fetch s = .ok op) (hd : decode op = .ok i) :
    runInstr s = exec i s := by
  simp only [runInstr, hf, hd]

/-- Settles O9: the fetch answers the greater of PC and 0x1000, and the random byte plays no part in it. -/
theorem fetchAboveMemoryFaults : Obligations.FetchAboveMemoryFaults := by
  intro rand s hs
  have hfault : 0xFFF ≤ s.pc.toNat → runInstr { s with rand := rand } = .next (haltedBy .addressOutOfRange none
      (.address (max s.pc.toNat 0x1000)) { s with rand := rand }) := fun hpc =>
    runInstr_of_fetch_error (fetch_error (s := { s with rand := rand }) (Nat.lt_succ_of_le hpc))
  rw [stepEvent_of_running hs]
  refine ⟨fun hpc => ?_, fun hpc => ?_⟩
  · rw [hfault hpc.ge, hpc]
    rfl
  · rw [hfault hpc.le, Nat.max_eq_left hpc]

/-- Settles O10: the faulting word is the fetched one, and the fetch does not see the random byte. -/
theorem illegalOpcodeFaults : Obligations.IllegalOpcodeFaults := by
  intro rand s op why hs hf hd
  rw [stepEvent_of_running hs]
  exact runInstr_of_decode_error (s := { s with rand := rand }) hf hd

/-- Settles O11: the two bytes at 0x200 are unlisted and read as zero, and 0x0000 is illegal. -/
theorem stepBeforeLoadFaults : Obligations.StepBeforeLoadFaults := by
  intro rand
  have hf : fetch State.reset = .ok 0x0000 := by decide
  exact ⟨_, illegalOpcodeFaults rand State.reset 0x0000 .family0 rfl hf rfl, rfl, rfl⟩

/-- Settles O12: neither the schedule nor the random byte plays a part in the halt latch or the fetch. -/
theorem stepRunsTheDecodedInstruction : Obligations.StepRunsTheDecodedInstruction := by
  intro s rand op i hs hnext hf hd
  have hhalt : (takeEvent s).halt = none := by rw [takeEvent_eq]; exact hs
  have hfetch : fetch { takeEvent s with rand := rand } = .ok op := by rw [takeEvent_eq]; exact hf
  rw [step, hnext]
  exact (stepEvent_of_running hhalt rand).trans (runInstr_of_decode hfetch hd)

/-- Settles O14: the step of a halted core is the state it found, and the other events are guarded by the latch. -/
theorem haltedCoreIgnoresEvents : Obligations.HaltedCoreIgnoresEvents := by
  intro s e hs he
  cases e with
  | reset => exact absurd rfl he
  | step rand => exact stepEvent_of_halted hs rand
  | loadProgram | setKey | tick => exact congrArg Host.Outcome.next (unlessHalted_of_halted hs _)

/-- A finished program has fetched a jump to its own address (R256). -/
theorem finished_inv {s : State} (h : finished s = true) :
    s.halt = none ∧ ∃ op nnn, fetch s = .ok op ∧ decode op = .ok (.jp nnn) ∧ zext16 nnn = s.pc := by
  obtain ⟨hrun, hjump⟩ := Bool.and_eq_true_iff.1 h
  refine ⟨by simpa [halted] using hrun, ?_⟩
  split at hjump
  case h_1 => cases hjump
  case h_2 op hf =>
    split at hjump
    case h_1 nnn hd => exact ⟨op, nnn, hf, hd, of_decide_eq_true hjump⟩
    case h_2 => cases hjump

/-- Settles O15: the jump sets PC to the address it stands at. -/
theorem finishedProgramStays : Obligations.FinishedProgramStays := by
  intro s rand hfin
  obtain ⟨hs, op, nnn, hf, hd, hpc⟩ := finished_inv hfin
  refine ⟨{ s with rand := rand }, ?_, rfl, rfl, rfl⟩
  rw [stepEvent_of_running hs, runInstr_of_decode (s := { s with rand := rand }) hf hd, exec, execJp, hpc]

theorem haltedBy_clear {kind : FaultKind} {opcode : Option Word} {info : FaultInfo} {s : State}
    (hs : s.halt = none) : { haltedBy kind opcode info s with halt := none } = s := by
  rw [← hs]
  rfl

/-- Settles O57: a fault adds its record alone, so clearing the latch gives the state of the faulting step back. -/
theorem faultingStepIsPrecise : Obligations.FaultingStepIsPrecise := by
  intro s t rand hs h ht
  rw [stepEvent_of_running hs] at h
  obtain hsame | ⟨kind, opcode, info, rfl⟩ := runInstr_next_halt h
  · exact absurd (hsame.trans hs) ht
  · have hclear : runInstr { haltedBy kind opcode info { s with rand := rand } with halt := none } =
        runInstr { s with rand := rand } := congrArg runInstr (haltedBy_clear (s := { s with rand := rand }) hs)
    exact ⟨_, rfl, rfl, hclear.trans h⟩

/-! ## Keys and programs from the host -/

theorem deliver_setKey_of_running {s : State} (hs : s.halt = none) (k : Nat) (pressed : Bool) :
    deliver (.setKey k pressed) s =
      .next (if h : k < 16 then { s with key := s.key.set k pressed h } else s) :=
  congrArg Host.Outcome.next (unlessHalted_of_running hs _)

theorem refuses_setKey_of_running {s : State} (hs : s.halt = none) (k : Nat) (pressed : Bool) :
    refuses (.setKey k pressed) s = decide (15 < k) := by
  simp [refuses, hs]

theorem deliver_loadProgram_of_running {s : State} (hs : s.halt = none) (bytes : List Byte) :
    deliver (.loadProgram bytes) s =
      .next (if bytes.length > 3584 then s else { s with mem := s.mem.writeBlock 0x200 bytes }) :=
  congrArg Host.Outcome.next (unlessHalted_of_running hs _)

theorem refuses_loadProgram_of_running {s : State} (hs : s.halt = none) (bytes : List Byte) :
    refuses (.loadProgram bytes) s = decide (3584 < bytes.length) := by
  simp [refuses, hs]

/-- Settles O17: an index below 16 sets its element of the vector of flags, any other is refused. -/
theorem setKeySetsOneFlag : Obligations.SetKeySetsOneFlag := by
  intro s k pressed hs
  rw [deliver_setKey_of_running hs, refuses_setKey_of_running hs]
  constructor
  · intro hk
    refine ⟨decide_eq_false (by omega), _, congrArg _ (dif_pos hk), ?_, fun j hj => ?_, rfl⟩
    · simp [State.keyDown, hk]
    · simp [State.keyDown, hj.symm]
  · intro hk
    exact ⟨decide_eq_true hk, congrArg _ (dif_neg (Nat.not_lt.2 hk))⟩

/-- Settles O18: a program that fits is one block written at 0x200, any other is refused. -/
theorem loadProgramCopiesTheBytes : Obligations.LoadProgramCopiesTheBytes := by
  intro s bytes hs
  rw [deliver_loadProgram_of_running hs, refuses_loadProgram_of_running hs]
  constructor
  · intro hlen
    have hfits : ¬ 3584 < bytes.length := Nat.not_lt.2 hlen
    exact ⟨decide_eq_false hfits, _, congrArg _ (if_neg hfits),
      fun _ hk => s.mem.read_writeBlock_getElem 0x200 bytes hk,
      fun _ ha => s.mem.read_writeBlock_outside ha, rfl⟩
  · intro hlen
    exact ⟨decide_eq_true hlen, congrArg _ (if_pos hlen)⟩

/-! ## Outputs -/

/-- A halted core executes no 00E0 (R237, R253). -/
theorem clsEvent_of_halted {s : State} (hs : s.halt ≠ none) (e : HostEvent) : clsEvent e s = false := by
  cases e with
  | step rand => simp [clsEvent, halted, Option.isSome_iff_ne_none.2 hs]
  | reset | loadProgram | setKey | tick => rfl

theorem clsEvent_iff (e : HostEvent) (s : State) :
    clsEvent e s = true ↔ ∃ rand, e = .step rand ∧ s.halt = none ∧ fetch s = .ok 0x00E0 := by
  by_cases hs : s.halt = none
  · cases e with
    | step rand => simp [clsEvent_step_iff hs, hs]
    | reset | loadProgram | setKey | tick => simp [clsEvent]
  · simp [clsEvent_of_halted hs, hs]

theorem pcOut_step {rand : Byte} {s t : State} (h : stepEvent rand s = .next t) :
    pcOut (.step rand) s = some t.pc := by
  simp only [pcOut, deliver, h]

theorem pcOut_iff (e : HostEvent) (s : State) (pc : Word) :
    pcOut e s = some pc ↔ ∃ rand t, e = .step rand ∧ stepEvent rand s = .next t ∧ t.pc = pc := by
  cases e with
  | step rand =>
    obtain ⟨t, ht⟩ := stepEvent_answers rand s
    simp [pcOut_step ht, ht]
  | reset | loadProgram | setKey | tick => simp [pcOut]

theorem framebuffer_length (s : State) : (framebuffer s).length = 2048 :=
  (List.length_map _).trans List.length_range

/-- The place of a display cell in the output `framebuffer` (R251). -/
theorem getElem?_framebuffer (s : State) {cx cy : Nat} (hx : cx < 64) (hy : cy < 32) :
    (framebuffer s)[cx + 64 * cy]? = some ((s.pix[cy]?.getD 0).getLsbD cx) := by
  have hk : cx + 64 * cy < 64 * 32 := by omega
  have hrow : (cx + 64 * cy) / 64 = cy := by omega
  have hcol : (cx + 64 * cy) % 64 = cx := by omega
  simp only [framebuffer, Config.dispW, Config.dispH, List.getElem?_map, List.getElem?_range hk, Option.map_some,
    Display.cell, hrow, hcol]

/-- Settles O60: each output by its own lemma. -/
theorem outputsShowTheStateAndTheStep : Obligations.OutputsShowTheStateAndTheStep :=
  fun e s => ⟨clsEvent_iff e s, pcOut_iff e s, Option.isSome_iff_ne_none, framebuffer_length s,
    fun _ _ hx hy => getElem?_framebuffer s hx hy⟩

end Sys2Proof.Machine
end
